-- ==== Sys2Proof/Word.lean ====
section
/-! DEFINITION. The widths of 00_scope.md R11 and 30_encoding.md R70, R78, R82, R83 as bit vectors. -/

namespace Sys2Proof

/-- A byte: 8 bits, unsigned (R11). -/
abbrev Byte := BitVec 8

/-- A 16-bit count: `data_length`, `T_LEN`, `PCNT`, `H_LEN` (R75, R21). -/
abbrev Half := BitVec 16

/-- A command word, and the argument of a request (R78, R82). -/
abbrev Word := BitVec 32

/-- A frame header as one number, `HDR48`: its least significant byte is the first on the wire (R70). -/
abbrev Header48 := BitVec 48

/-- A request `REQ[35:0]` (R82). -/
abbrev Request := BitVec 36

/-- A response `RSP[49:0]` (R83). -/
abbrev Response := BitVec 50

end Sys2Proof
end

