-- ==== Sys2Proof/Config.lean ====
section
/-! DEFINITION. The parameters of 00_scope.md R10, and the free values of 10_state.md R38.
Fixed parameters have the spec's value. The open one, and the unspecified contents, are opaque constants
without a body: nothing can be proved of their values, so a claim holds for all of them. -/

namespace Sys2Proof.Config

/-- Bytes in the frame header (R10). -/
def hdrSize : Nat := 6

/-- The `protocol_version` byte, hardwired in the encoder (R10, R122). -/
def protoVer : Byte := 3

/-- Initial value of the checksum accumulator (R10, R100). -/
def csInit : Byte := 0xFF

/-- The final inversion mask of the checksum (R10, R100). -/
def csFinalXor : Byte := 0xFF

/-- Payload of the unlock frame, in wire order (R10, R76). -/
def unlockKey : List Byte := [0xEF, 0xCD, 0xAB, 0x89, 0x67, 0x45, 0x23, 0x01]

/-- Bounds of the operand of a motion command, applied by the host (R10, R179). -/
def speedMin : Nat := 15
@[inherit_doc speedMin] def speedMax : Nat := 15600

/-- The three command opcodes the source uses (R10, R87). -/
def opRotE : BitVec 6 := 0x0E
@[inherit_doc opRotE] def opRotF : BitVec 6 := 0x0F
@[inherit_doc opRotE] def opStop : BitVec 6 := 0x22

/-- The assigned `command_type` values (R10, R73). -/
def typeUnlock : Byte := 0
@[inherit_doc typeUnlock] def typeLoginReply : Byte := 1
@[inherit_doc typeUnlock] def typeMotor : Byte := 2

/-- The access-result code that means granted (R10, R77). -/
def accessGranted : Byte := 0x01

/-- The free value behind `PMAX` (log entry 1). -/
opaque pmaxSeed : BitVec 16

/-- `PMAX`, the capacity of the payload buffer: OPEN, `8 <= PMAX <= 65535` (R10, D10).
Every value of that range is possible and none is known (log entry 1, safe). -/
def pmax : Nat := pmaxSeed.toNat % 65528 + 8

/-- The unspecified contents that a reset event leaves in the data registers, one for each draw
(R38, R270; log entry 5, safe). -/
opaque unspecified : Nat → Half

/-- The unspecified contents of a payload buffer byte that nothing has written since the last reset
event: the first argument numbers the reset, the second is the index (R38; log entry 6, safe). -/
opaque unspecifiedPbuf : Nat → Nat → Byte

/-- `PMAX` holds the unlock key (R10). -/
theorem eight_le_pmax : 8 ≤ pmax := Nat.le_add_left 8 _

/-- `PMAX` fits `data_length` (R10). -/
theorem pmax_le_65535 : pmax ≤ 65535 := by unfold pmax; omega

end Sys2Proof.Config
end

