-- ==== Sys2Proof/Syntax.lean ====
section
/-! DEFINITION. The instructions: one constructor for each of the 26 rows of spec/opcode_table.json, and the
transfers by which the host presents them.

Operands have exactly the widths of 30_encoding.md R85, R70 and R78, so an over-wide operand cannot be
written (D15, D30). Argument bits that an operation does not name are not read (R82) and have no place here. -/

namespace Sys2Proof

/-- Which way a frame travels (30_encoding.md R90). -/
inductive Direction where
  /-- host to device: a frame FCP encodes -/
  | toDevice
  /-- device to host: a frame whose header FCP may parse -/
  | toHost
  deriving DecidableEq, Repr

/-- One constructor per row of the opcode table. The first sixteen are the operations of the request
port (R84); then the frame headers (R70, R76 to R81); then the command words (R78, R87). -/
inductive Instr where
  /-- R200 -/
  | nop
  /-- R101 -/
  | csinit
  /-- R102 -/
  | csadd (b : Byte)
  /-- R103 -/
  | csfin
  /-- R123 -/
  | encstart (ty id : Byte) (len : Half)
  /-- R124 -/
  | encpay (b : Byte)
  /-- R125 -/
  | encemit
  /-- R126 -/
  | encabort
  /-- R154 -/
  | hdpush (b : Byte)
  /-- R155 -/
  | hdget
  /-- R156 -/
  | hdclr
  /-- R176 -/
  | pack (op : BitVec 6) (val : BitVec 22)
  /-- R177 -/
  | unpack (w : Word)
  /-- R201, `opsel` 0xD -/
  | reservedD
  /-- R201, `opsel` 0xE -/
  | reservedE
  /-- R201, `opsel` 0xF -/
  | reservedF
  /-- R70: any frame that is none of the named variants in its direction; the version is 3 in every frame
  FCP encodes (R72, R122), and any byte in one it parses (R88, log entry 17) -/
  | frame (dir : Direction) (ck ver ty id : Byte) (len : Half)
  /-- R76: type 0, length 8, to the device -/
  | unlock (ck id : Byte)
  /-- R77: type 1, length 7, to the host -/
  | loginReply (ck id : Byte)
  /-- R79: type 2, length 4, to the device -/
  | moveStatusCmd (ck id : Byte)
  /-- R80: type 2, length 7, to the host -/
  | statusReply (ck id : Byte)
  /-- R81: length 0, to the host; type, id, checksum and version not stated -/
  | greeting (ck ver ty id : Byte)
  /-- R78: any other word that `pack` can produce -/
  | cw (op : BitVec 6) (val : BitVec 22)
  /-- R87: opcode 0x0E -/
  | rotE (val : BitVec 22)
  /-- R87: opcode 0x0F -/
  | rotF (val : BitVec 22)
  /-- R87: opcode 0x22, operand 0 -/
  | stop
  deriving DecidableEq, Repr

/-- What the host presents, in one of the three formats of the opcode table. A request is the only
format of FCP's port (R82); a header or a command word stands for the fixed sequence of requests that
the host makes of it (log entries 10, 11). -/
inductive Transfer where
  | req (w : Request)
  | hdr (dir : Direction) (w : Header48)
  | cw (w : Word)
  deriving DecidableEq, Repr

end Sys2Proof
end

