-- ==== Sys2Proof/WellFormed.lean ====
section
/-! DEFINITION. Which terms of `Instr` stand for what an encoding can say. Every operand value is an
encodable one; the checks only keep the two generic rows, FRAME and CW, apart from the named rows
that cover the same bits (30_encoding.md R87, R90). -/

namespace Sys2Proof

/-- A frame to the device is generic when it has version 3 (R72, R122) and is neither an unlock nor a
move/status command (R90). -/
abbrev genericToDevice (ver ty : Byte) (len : Half) : Prop :=
  ver = Config.protoVer ∧ ¬(ty = Config.typeUnlock ∧ len = 8) ∧ ¬(ty = Config.typeMotor ∧ len = 4)

/-- A frame to the host is generic when it is neither a greeting, a login reply nor a status reply (R90);
those two have version 3. -/
abbrev genericToHost (ver ty : Byte) (len : Half) : Prop :=
  len ≠ 0 ∧ ¬(ver = Config.protoVer ∧ ty = Config.typeLoginReply ∧ len = 7) ∧
    ¬(ver = Config.protoVer ∧ ty = Config.typeMotor ∧ len = 7)

/-- A command word is generic when its opcode and operand are none of the named commands' (R87). -/
abbrev genericWord (op : BitVec 6) (val : BitVec 22) : Prop :=
  op ≠ Config.opRotE ∧ op ≠ Config.opRotF ∧ ¬(op = Config.opStop ∧ val = 0)

/-- The instruction is the one its own encoding stands for. -/
def Instr.WellFormed : Instr → Bool
  | .frame .toDevice _ ver ty _ len => decide (genericToDevice ver ty len)
  | .frame .toHost _ ver ty _ len => decide (genericToHost ver ty len)
  | .cw op val => decide (genericWord op val)
  | .nop | .csinit | .csadd _ | .csfin | .encstart _ _ _ | .encpay _ | .encemit | .encabort
  | .hdpush _ | .hdget | .hdclr | .pack _ _ | .unpack _ | .reservedD | .reservedE | .reservedF
  | .unlock _ _ | .loginReply _ _ | .moveStatusCmd _ _ | .statusReply _ _ | .greeting _ _ _ _
  | .rotE _ | .rotF _ | .stop => true

end Sys2Proof
end

