-- ==== Sys2Proof/Decode.lean ====
section
/-! DEFINITION. The decoder of the three formats of 30_encoding.md (requests R82, R84, R85; frame headers
R70, R90; command words R78, R87), total on every transfer, and the encoder beside it. -/

namespace Sys2Proof

/-- Why the decoder rejects a transfer. Requests are never rejected: all sixteen `opsel` values have a
row. Both reasons are safe: the model stops. -/
inductive DecodeReject where
  /-- a header to the device with a version other than 3, which FCP cannot encode (R72, R88, R122) -/
  | undescribedHeader
  /-- a word `pack` cannot produce: a reserved or the action bit is set (R78, R88) -/
  | undescribedWord
  deriving DecidableEq, Repr

/-- `opsel = REQ[35:32]` (R82). -/
def opselOf (w : Request) : BitVec 4 := w.extractLsb' 32 4

/-- `arg = REQ[31:0]` (R82). -/
def argOf (w : Request) : Word := w.extractLsb' 0 32

/-- `arg[7:0]`: the byte operand of CSADD, ENCPAY and HDPUSH, and `type` of ENCSTART (R85). -/
def argByte (a : Word) : Byte := a.extractLsb' 0 8

/-- `arg[15:8]`: `id` of ENCSTART (R85). -/
def argId (a : Word) : Byte := a.extractLsb' 8 8

/-- `arg[31:16]`: `len` of ENCSTART (R85). -/
def argLen (a : Word) : Half := a.extractLsb' 16 16

/-- `arg[5:0]`: `op` of PACK (R85). -/
def argOp (a : Word) : BitVec 6 := a.extractLsb' 0 6

/-- `arg[27:6]`: `val` of PACK (R85). -/
def argVal (a : Word) : BitVec 22 := a.extractLsb' 6 22

/-- The operation select map (R84). -/
def decodeRequest (w : Request) : Instr :=
  let a := argOf w
  match (opselOf w).toNat with
  | 0x0 => .nop
  | 0x1 => .csinit
  | 0x2 => .csadd (argByte a)
  | 0x3 => .csfin
  | 0x4 => .encstart (argByte a) (argId a) (argLen a)
  | 0x5 => .encpay (argByte a)
  | 0x6 => .encemit
  | 0x7 => .encabort
  | 0x8 => .hdpush (argByte a)
  | 0x9 => .hdget
  | 0xA => .hdclr
  | 0xB => .pack (argOp a) (argVal a)
  | 0xC => .unpack a
  | 0xD => .reservedD
  | 0xE => .reservedE
  | _ => .reservedF

/-- The fields of `HDR48` (R70). -/
def hdrCk (w : Header48) : Byte := w.extractLsb' 0 8
@[inherit_doc hdrCk] def hdrVer (w : Header48) : Byte := w.extractLsb' 8 8
@[inherit_doc hdrCk] def hdrType (w : Header48) : Byte := w.extractLsb' 16 8
@[inherit_doc hdrCk] def hdrId (w : Header48) : Byte := w.extractLsb' 24 8
@[inherit_doc hdrCk] def hdrLen (w : Header48) : Half := w.extractLsb' 32 16

/-- The classification of R90: direction, `command_type` and `data_length` say the variant. Every row but
GREETING fixes the version to 3; a header to the host with another one is a frame that is parsed like any
other (R88, R153), so it is the generic row's. -/
def decodeHeader (dir : Direction) (w : Header48) : Except DecodeReject Instr :=
  let ck := hdrCk w
  let ver := hdrVer w
  let ty := hdrType w
  let id := hdrId w
  let len := hdrLen w
  match dir with
  | .toDevice =>
    if ver ≠ Config.protoVer then .error .undescribedHeader
    else if ty = Config.typeUnlock ∧ len = 8 then .ok (.unlock ck id)
    else if ty = Config.typeMotor ∧ len = 4 then .ok (.moveStatusCmd ck id)
    else .ok (.frame .toDevice ck ver ty id len)
  | .toHost =>
    if len = 0 then .ok (.greeting ck ver ty id)
    else if ver = Config.protoVer ∧ ty = Config.typeLoginReply ∧ len = 7 then .ok (.loginReply ck id)
    else if ver = Config.protoVer ∧ ty = Config.typeMotor ∧ len = 7 then .ok (.statusReply ck id)
    else .ok (.frame .toHost ck ver ty id len)

/-- `word[9:4]` (R78). -/
def wordOp (w : Word) : BitVec 6 := w.extractLsb' 4 6

/-- `word[31:10]` (R78). -/
def wordVal (w : Word) : BitVec 22 := w.extractLsb' 10 22

/-- `word[3]` (R78). -/
def wordAct (w : Word) : BitVec 1 := w.extractLsb' 3 1

/-- `word[2:0]` (R78). -/
def wordRsv (w : Word) : BitVec 3 := w.extractLsb' 0 3

/-- The command words the table lists: reserved and action bits 0 (R78), three named commands (R87). -/
def decodeWord (w : Word) : Except DecodeReject Instr :=
  let op := wordOp w
  let val := wordVal w
  if wordRsv w ≠ 0 ∨ wordAct w ≠ 0 then .error .undescribedWord
  else if op = Config.opRotE then .ok (.rotE val)
  else if op = Config.opRotF then .ok (.rotF val)
  else if op = Config.opStop ∧ val = 0 then .ok .stop
  else .ok (.cw op val)

/-- The decoder: total, and what it rejects it rejects by name. -/
def decode : Transfer → Except DecodeReject Instr
  | .req w => .ok (decodeRequest w)
  | .hdr dir w => decodeHeader dir w
  | .cw w => decodeWord w

/-! ### The encoder, from the same tables -/

/-- `{opsel, arg}` (R82). -/
def encodeRequest (opsel : BitVec 4) (arg : Word) : Request := opsel ++ arg

/-- A byte operand in `arg[7:0]`, unread bits 0 (R85, R92). -/
def byteArg (b : Byte) : Word := 0#24 ++ b

/-- `{len, id, type}` (R85). -/
def startArg (ty id : Byte) (len : Half) : Word := len ++ (id ++ ty)

/-- `{0000, val, op}` (R85, R92). -/
def packArg (op : BitVec 6) (val : BitVec 22) : Word := 0#4 ++ (val ++ op)

/-- `HDR48` (R70). -/
def encodeHeader (ck ver ty id : Byte) (len : Half) : Header48 := len ++ (id ++ (ty ++ (ver ++ ck)))

/-- `{operand, opcode, action, reserved}` with action and reserved 0 (R78). -/
def encodeWord (op : BitVec 6) (val : BitVec 22) : Word := val ++ (op ++ (0#1 ++ 0#3))

/-- The transfer that stands for a well-formed instruction. -/
def encode : Instr → Transfer
  | .nop => .req (encodeRequest 0x0 0)
  | .csinit => .req (encodeRequest 0x1 0)
  | .csadd b => .req (encodeRequest 0x2 (byteArg b))
  | .csfin => .req (encodeRequest 0x3 0)
  | .encstart ty id len => .req (encodeRequest 0x4 (startArg ty id len))
  | .encpay b => .req (encodeRequest 0x5 (byteArg b))
  | .encemit => .req (encodeRequest 0x6 0)
  | .encabort => .req (encodeRequest 0x7 0)
  | .hdpush b => .req (encodeRequest 0x8 (byteArg b))
  | .hdget => .req (encodeRequest 0x9 0)
  | .hdclr => .req (encodeRequest 0xA 0)
  | .pack op val => .req (encodeRequest 0xB (packArg op val))
  | .unpack w => .req (encodeRequest 0xC w)
  | .reservedD => .req (encodeRequest 0xD 0)
  | .reservedE => .req (encodeRequest 0xE 0)
  | .reservedF => .req (encodeRequest 0xF 0)
  | .frame dir ck ver ty id len => .hdr dir (encodeHeader ck ver ty id len)
  | .unlock ck id => .hdr .toDevice (encodeHeader ck Config.protoVer Config.typeUnlock id 8)
  | .loginReply ck id => .hdr .toHost (encodeHeader ck Config.protoVer Config.typeLoginReply id 7)
  | .moveStatusCmd ck id => .hdr .toDevice (encodeHeader ck Config.protoVer Config.typeMotor id 4)
  | .statusReply ck id => .hdr .toHost (encodeHeader ck Config.protoVer Config.typeMotor id 7)
  | .greeting ck ver ty id => .hdr .toHost (encodeHeader ck ver ty id 0)
  | .cw op val => .cw (encodeWord op val)
  | .rotE val => .cw (encodeWord Config.opRotE val)
  | .rotF val => .cw (encodeWord Config.opRotF val)
  | .stop => .cw (encodeWord Config.opStop 0)

/-! ### Words of the opcode table -/

/-- The direction in which a header of the table is read when nothing says it: the two replies and a
version FCP never emits (R122) come from the device, the rest go to it (log entry 11). -/
def tableDirection (w : Header48) : Direction :=
  if hdrVer w ≠ Config.protoVer then .toHost
  else if hdrLen w = 7 ∧ (hdrType w = Config.typeLoginReply ∨ hdrType w = Config.typeMotor) then .toHost
  else .toDevice

/-- The transfer of a word of the opcode table: 4 bytes are a command word, 5 a request (whose four
uppermost bits do not exist and must be 0), 6 a frame header; the table has no other size. -/
def transferOfBits (nbits w : Nat) : Option Transfer :=
  match (nbits + 7) / 8 with
  | 4 => some (.cw (BitVec.ofNat 32 w))
  | 5 => if w < 2 ^ 36 then some (.req (BitVec.ofNat 36 w)) else none
  | 6 => some (.hdr (tableDirection (BitVec.ofNat 48 w)) (BitVec.ofNat 48 w))
  | _ => none

/-- What the decoder reads from a word of the opcode table. -/
def decodeTableWord (nbits w : Nat) : Option Instr :=
  match transferOfBits nbits w with
  | none => none
  | some x => (decode x).toOption

end Sys2Proof
end

