-- ==== Sys2Proof/Machine/Functions.lean ====
section
/-! DEFINITION. The pure functions of the source, the tier that fixes every byte on the wire (92_eei_decisions.md,
first rule): checksum (40_checksum.md R100), encode (41_frame_encoder.md R121), decode_header
(42_header_parser.md R151), pack, unpack and word_bytes (43_command_word.md R171, R172, R174). -/

namespace Sys2Proof.Machine

/-- One step of the checksum: 8-bit addition, carry discarded (R100, R105 law 8). -/
def accAdd (a b : Byte) : Byte := a + b

/-- `acc_of` carried on from an accumulator `a` (R105 law 4). -/
def accFrom (a : Byte) (s : List Byte) : Byte := s.foldl accAdd a

/-- `acc_of(s)` (R100). -/
def accOf (s : List Byte) : Byte := accFrom Config.csInit s

/-- The final inversion (R100). -/
def accFinal (a : Byte) : Byte := a ^^^ Config.csFinalXor

/-- `csum(s)` (R100). -/
def csum (s : List Byte) : Byte := accFinal (accOf s)

/-- The low and the high byte of a 16-bit count, little-endian (R51, log entry 18). -/
def loByte (n : Half) : Byte := n.extractLsb' 0 8
@[inherit_doc loByte] def hiByte (n : Half) : Byte := n.extractLsb' 8 8

/-- The five header bytes of the checksum span (R107, R121). -/
def headBytes (ver ty id : Byte) (len : Half) : List Byte := [ver, ty, id, loByte len, hiByte len]

/-- `encode(ver, type, id, payload)` (R121): the length is the payload's, up to 65535 (R120); of a longer sequence,
which is no payload of the spec, the length modulo 65536 (DESIGN CHOICE, log entry 27). -/
def encodeFrame (ver ty id : Byte) (payload : List Byte) : List Byte :=
  let body := headBytes ver ty id (BitVec.ofNat 16 payload.length) ++ payload
  csum body :: body

/-- A header value (R150). -/
structure HeaderValue where
  ck : Byte
  ver : Byte
  ty : Byte
  id : Byte
  len : Half
  deriving DecidableEq, Repr

/-- `{b5, b4}` = `b4 + 256 * b5` (R89). -/
def joinLen (b4 b5 : Byte) : Half := b5 ++ b4

/-- `decode_header` (R151), defined on byte sequences of length exactly 6 (R152). -/
def decodeHeaderBytes : List Byte → Option HeaderValue
  | [b0, b1, b2, b3, b4, b5] => some ⟨b0, b1, b2, b3, joinLen b4 b5⟩
  | _ => none

/-- The inverse of `decode_header` (R152 item 2). -/
def headerBytes (h : HeaderValue) : List Byte := [h.ck, h.ver, h.ty, h.id, loByte h.len, hiByte h.len]

/-- `pack(op, val)` (R171), by explicit shifts and masks as R183 demands. -/
def packWord (op : BitVec 6) (val : BitVec 22) : Word := (val.setWidth 32 <<< 10) ||| (op.setWidth 32 <<< 4)

/-- `pack` over naturals: no value outside `op < 64`, `val < 2^22`; nothing is truncated (R176, D30). -/
def packNat (op val : Nat) : Option Nat :=
  if op < 64 ∧ val < 4194304 then some (val * 1024 + op * 16) else none

/-- The fields of `unpack` (R172), by explicit shifts and masks. -/
def unpackOp (w : Word) : BitVec 6 := ((w >>> 4) &&& 0x3F).setWidth 6
@[inherit_doc unpackOp] def unpackVal (w : Word) : BitVec 22 := ((w >>> 10) &&& 0x3FFFFF).setWidth 22
@[inherit_doc unpackOp] def unpackAct (w : Word) : BitVec 1 := ((w >>> 3) &&& 1).setWidth 1
@[inherit_doc unpackOp] def unpackRsv (w : Word) : BitVec 3 := (w &&& 7).setWidth 3

/-- `word_bytes(w)`, least significant byte first (R174). -/
def wordBytes (w : Word) : List Byte :=
  [w.extractLsb' 0 8, w.extractLsb' 8 8, w.extractLsb' 16 8, w.extractLsb' 24 8]

/-- `bytes_word`, its inverse on four bytes (R174). -/
def bytesWord : List Byte → Option Word
  | [b0, b1, b2, b3] => some (b3 ++ (b2 ++ (b1 ++ b0)))
  | _ => none

end Sys2Proof.Machine
end

