-- ==== Sys2Proof/Machine/Operands.lean ====
section
/-! DEFINITION. The response data layouts of 30_encoding.md R86 and the argument bits each operation reads (R85).
The argument fields themselves are extracted in Decode.lean. -/

namespace Sys2Proof.Machine

/-- The status codes, `RSP[49:48]` (60_exceptions.md R240). -/
inductive Status where
  | ok
  | refusedState
  | refusedLen
  | illegalOp
  deriving DecidableEq, Repr

/-- The code of a status (R240). -/
def statusCode : Status → BitVec 2
  | .ok => 0
  | .refusedState => 1
  | .refusedLen => 2
  | .illegalOp => 3

/-- `RSP = {status, data}` (R83). -/
def mkResponse (st : Status) (data : BitVec 48) : Response := statusCode st ++ data

/-- `RSP[49:48]` (R83). -/
def rspStatus (r : Response) : BitVec 2 := r.extractLsb' 48 2

/-- `RSP[47:0]` (R83). -/
def rspData (r : Response) : BitVec 48 := r.extractLsb' 0 48

/-- CSFIN: `data[7:0] = ck`; unnamed bits are 0 (R86, R83). -/
def dataByte (b : Byte) : BitVec 48 := 0#40 ++ b

/-- ENCEMIT: `data[7:0] = byte`, `data[8] = last` (R86). -/
def dataEmit (last : Bool) (b : Byte) : BitVec 48 := 0#39 ++ (BitVec.ofBool last ++ b)

/-- HDPUSH: `data[0] = valid` (R86). -/
def dataValid (v : Bool) : BitVec 48 := 0#47 ++ BitVec.ofBool v

/-- HDGET: `{len, id, type, ver, ck}`, the layout `HDR48` of R70 (R86). -/
def dataHeader (h : HeaderValue) : BitVec 48 := h.len ++ (h.id ++ (h.ty ++ (h.ver ++ h.ck)))

/-- PACK: `data[31:0] = word` (R86). -/
def dataWord (w : Word) : BitVec 48 := 0#16 ++ w

/-- UNPACK: `{rsv, act, val, op}` in `data[31:0]` (R86, R177). -/
def dataUnpack (w : Word) : BitVec 48 := 0#16 ++ (unpackRsv w ++ (unpackAct w ++ (unpackVal w ++ unpackOp w)))

/-- The bits of `arg` that the operation of an `opsel` reads (R85, U17); every other bit is ignored (D26). -/
def readMask (opsel : BitVec 4) : Word :=
  match opsel.toNat with
  | 0x2 | 0x5 | 0x8 => 0x000000FF
  | 0x4 | 0xC => 0xFFFFFFFF
  | 0xB => 0x0FFFFFFF
  | _ => 0

/-- The bits of response data that the operation of an `opsel` names (R86); every other bit is 0 (R83, U18). -/
def dataMask (opsel : BitVec 4) : BitVec 48 :=
  match opsel.toNat with
  | 0x3 => 0x0000000000FF
  | 0x6 => 0x0000000001FF
  | 0x8 => 0x000000000001
  | 0x9 => 0xFFFFFFFFFFFF
  | 0xB | 0xC => 0x0000FFFFFFFF
  | _ => 0

end Sys2Proof.Machine
end

