-- ==== Sys2Proof/Machine/State.lean ====
section
/-! DEFINITION. The state of FCP (10_state.md R21), the reasons the model can stop, and the state after reset
(70_reset_and_hazards.md R270). -/

namespace Sys2Proof.Machine

/-- The encoder's state (R24). The 2-bit code 3 is never written and has no behaviour; the spec lets a
model use a three-valued type (R24, U16; log entry 7). -/
inductive EState where
  /-- code 0: no frame in progress -/
  | idle
  /-- code 1: header fields taken, payload bytes being accepted -/
  | fill
  /-- code 2: the frame is complete and is being read out -/
  | emit
  deriving DecidableEq, Repr

/-- The payload buffer `PBUF` (R28, R50): the bytes written since the last reset, as (index, byte) pairs
with strictly rising indices. A byte that is not listed has no value in the buffer (log entry 6). -/
abbrev Memory := List Host.Cell

/-- The canonical form of the buffer. -/
abbrev Memory.wf (m : Memory) : Prop := (m.map Prod.fst).Pairwise (· < ·)

/-- What the host presents next: a transfer, or the reset event (R271), which is no request. -/
inductive Input where
  | transfer (x : Transfer)
  | reset
  deriving DecidableEq, Repr

/-- The fifteen elements of R21, and the model's own three fields. -/
structure State where
  /-- `ACC`, checksum accumulator (R23) -/
  acc : Byte
  /-- `ESTATE` (R24) -/
  estate : EState
  /-- `T_TYPE`, `command_type` of the frame being encoded (R25) -/
  tType : Byte
  /-- `T_ID`, its `command_id` (R25) -/
  tId : Byte
  /-- `T_LEN`, its `data_length` (R25) -/
  tLen : Half
  /-- `PCNT`, payload bytes accepted (R26) -/
  pcnt : Half
  /-- `EIDX`, index of the next frame byte to emit (R27) -/
  eidx : BitVec 17
  /-- `PBUF` (R28) -/
  pbuf : Memory
  /-- `HCNT`, header bytes accepted: "the values 0 to 5 only" of its 3 bits (R29; log entry 8) -/
  hcnt : Fin 6
  /-- `HVALID` (R30) -/
  hvalid : Bool
  /-- `H_CK`, received `checksum` (R31) -/
  hCk : Byte
  /-- `H_VER`, received `protocol_version` (R31) -/
  hVer : Byte
  /-- `H_TYPE`, received `command_type` (R31) -/
  hType : Byte
  /-- `H_ID`, received `command_id` (R31) -/
  hId : Byte
  /-- `H_LEN`, received `data_length` (R31) -/
  hLen : Half
  /-- the model's own: what the host has still to present, oldest first (log entry 2) -/
  inputs : List Input
  /-- the model's own: every response given, oldest first (log entry 3) -/
  rsps : List Response
  /-- the model's own: how many unspecified values reset events have drawn (log entry 5) -/
  fresh : Nat
  deriving DecidableEq, Repr

/-- Why the machine stops with a fault: it never does. "No behaviour of FCP is `fault` or `stuck`"
(93_implementation_defined.md), and a step is total on every state and every request (00_scope.md R8, D1), so
there is no reason to name. -/
inductive Fault where
  deriving DecidableEq, Repr

/-- Why the machine gives no meaning. -/
inductive Refusal where
  /-- raised by `exec` for an instruction without a meaning; no arm does; safe -/
  | notModelled (mnemonic : String)
  /-- raised by `step` when the host presents a frame header to the device with a version other than 3, which
  no row of the opcode table describes and FCP cannot encode; safe (log entry 17) -/
  | undescribedHeader
  /-- raised by `step` when the host presents a command word that no row of the opcode table describes;
  safe (log entry 17) -/
  | undescribedWord
  deriving DecidableEq, Repr

/-- The machine right after reset (R270): `ACC`, `ESTATE`, `PCNT`, `EIDX`, `HCNT` and `HVALID` as the spec
says; `T_*` and `H_*`, which it leaves unspecified, 0 (DESIGN CHOICE, log entry 4); no buffer byte listed
(log entry 6); nothing presented and nothing answered yet (log entries 2, 3). -/
def State.reset : State where
  acc := 0xFF
  estate := .idle
  tType := 0
  tId := 0
  tLen := 0
  pcnt := 0
  eidx := 0
  pbuf := []
  hcnt := 0
  hvalid := false
  hCk := 0
  hVer := 0
  hType := 0
  hId := 0
  hLen := 0
  inputs := []
  rsps := []
  fresh := 0

end Sys2Proof.Machine
end

