-- ==== Sys2Proof/Machine/Ops.lean ====
section
/-! DEFINITION. The named operations over the state: the payload buffer, answering a request, refusing one
(what FCP has in place of taking an exception, 60_exceptions.md R244), the reset event, and putting the
requests of a pseudo-operation in front. -/

namespace Sys2Proof.Machine

/-! ### The payload buffer (20_memory.md R50) -/

/-- The byte the buffer holds at an index, if one was written since the last reset. -/
def Memory.read (m : Memory) (a : Nat) : Option Byte := m.lookup a

/-- `PBUF[a] <- v`, keeping the canonical form. -/
def Memory.write (m : Memory) (a : Nat) (v : Byte) : Memory :=
  match m with
  | [] => [(a, v)]
  | (b, w) :: rest =>
    if a < b then (a, v) :: (b, w) :: rest
    else if a = b then (a, v) :: rest
    else (b, w) :: Memory.write rest a v

/-- `MemRead(a, 1)`: the byte held; a byte the buffer does not hold, because nothing has written it since
reset (R38, log entry 6) or because it has no such index (log entry 9), reads as a free value. -/
def memRead (s : State) (a : Nat) : Byte := (s.pbuf.read a).getD (Config.unspecifiedPbuf s.fresh a)

/-- `MemWrite(a, 1, v)`: the buffer after it. At an index the buffer does not have, which R50 says "is never
generated", there is no byte to store to and the buffer stays as it is (log entry 9). -/
def memWrite (s : State) (a : Nat) (v : Byte) : Memory :=
  if a < Config.pmax then s.pbuf.write a v else s.pbuf

/-! ### Responses -/

/-- Gives the one response of a request (R83). -/
def State.answer (s : State) (st : Status) (data : BitVec 48) : State :=
  { s with rsps := s.rsps ++ [mkResponse st data] }

/-- `respond(d)`: status OK (00_scope.md R12). -/
def respond (s : State) (data : BitVec 48) : Host.Outcome State Fault Refusal := .next (s.answer .ok data)

/-- `raise Refused(st)`: the status, data 0, and no state change; nothing is saved, no mode or control
changes, and there is nothing to return from (R12, R244, R245). -/
def refuse (s : State) (st : Status) : Host.Outcome State Fault Refusal := .next (s.answer st 0)

/-- `if ESTATE != e: raise Refused(REFUSED_STATE)`, else go on. -/
def requireEState (s : State) (e : EState) (k : Host.Outcome State Fault Refusal) :
    Host.Outcome State Fault Refusal :=
  if s.estate = e then k else refuse s .refusedState

/-! ### The reset event (70_reset_and_hazards.md R270 to R272) -/

/-- The `i`-th unspecified 16-bit value of the coming reset, and an 8-bit one (log entry 5). -/
def State.freeHalf (s : State) (i : Nat) : Half := Config.unspecified (s.fresh + i)
@[inherit_doc State.freeHalf] def State.freeByte (s : State) (i : Nat) : Byte := (s.freeHalf i).setWidth 8

/-- The reset event: the elements R270 gives a value get it, the unspecified ones get free values, no
buffer byte has a known value. Nothing outside FCP is cleared (R272): what the host has still to present
and the responses already given stay. -/
def State.resetEvent (s : State) : State where
  acc := Config.csInit
  estate := .idle
  tType := s.freeByte 0
  tId := s.freeByte 1
  tLen := s.freeHalf 2
  pcnt := 0
  eidx := 0
  pbuf := []
  hcnt := 0
  hvalid := false
  hCk := s.freeByte 3
  hVer := s.freeByte 4
  hType := s.freeByte 5
  hId := s.freeByte 6
  hLen := s.freeHalf 7
  inputs := s.inputs
  rsps := s.rsps
  fresh := s.fresh + 8

/-! ### Pseudo-operations (30_encoding.md R93) -/

/-- Instructions as the host presents them. -/
def asInputs (is : List Instr) : List Input := is.map fun i => .transfer (encode i)

/-- Puts the requests of a pseudo-operation in front of what the host has still to present (log entry 10).
No register of FCP changes and no response is given: each of the requests will have its own step. -/
def State.present (s : State) (is : List Instr) : State := { s with inputs := asInputs is ++ s.inputs }

end Sys2Proof.Machine
end

