-- ==== Sys2Proof/Machine/Checksum.lean ====
section
/-! DEFINITION. The operations of the checksum unit CSU (40_checksum.md). All three are refused while the encoder
uses `ACC` (70_reset_and_hazards.md R280). -/

namespace Sys2Proof.Machine

/-- R101. -/
def execCsinit (s : State) : Host.Outcome State Fault Refusal :=
  requireEState s .idle (respond { s with acc := Config.csInit } 0)

/-- R102. -/
def execCsadd (b : Byte) (s : State) : Host.Outcome State Fault Refusal :=
  requireEState s .idle (respond { s with acc := accAdd s.acc b } 0)

/-- R103: `ACC` is read and not changed. -/
def execCsfin (s : State) : Host.Outcome State Fault Refusal :=
  requireEState s .idle (respond s (dataByte (accFinal s.acc)))

end Sys2Proof.Machine
end

