-- ==== Sys2Proof/Machine/Control.lean ====
section
/-! DEFINITION. NOP and the reserved operation selects (44_control.md). -/

namespace Sys2Proof.Machine

/-- R200: no state is read or written, status OK, data 0. -/
def execNop (s : State) : Host.Outcome State Fault Refusal := respond s 0

/-- R201, `opsel` 0xD: refused with ILLEGAL_OP in every state. -/
def execReservedD (s : State) : Host.Outcome State Fault Refusal := refuse s .illegalOp

/-- R201, `opsel` 0xE: refused with ILLEGAL_OP in every state. -/
def execReservedE (s : State) : Host.Outcome State Fault Refusal := refuse s .illegalOp

/-- R201, `opsel` 0xF: refused with ILLEGAL_OP in every state. -/
def execReservedF (s : State) : Host.Outcome State Fault Refusal := refuse s .illegalOp

end Sys2Proof.Machine
end

