-- ==== Sys2Proof/Machine/Flags.lean ====
section
/-! DEFINITION. FCP has no condition codes, no carry and no overflow flag (10_state.md R32). The only one-bit
results are `last` of ENCEMIT, computed here with the test that ends a payload, and `HVALID`, a register,
which HDPUSH returns as `valid` (Header.lean). -/

namespace Sys2Proof.Machine

/-- `last`: the byte at `EIDX` is the last of the frame, `k == 5 + T_LEN` (41_frame_encoder.md R125),
compared as naturals so that no width can wrap (log entry 19). -/
def lastFlag (s : State) : Bool := decide (s.eidx.toNat = 5 + s.tLen.toNat)

/-- The payload is complete with this byte, `PCNT + 1 == T_LEN` (R124), compared as naturals
(log entry 19). -/
def payloadComplete (s : State) : Bool := decide (s.pcnt.toNat + 1 = s.tLen.toNat)

end Sys2Proof.Machine
end

