-- ==== Sys2Proof/Machine/Encoder.lean ====
section
/-! DEFINITION. The operations of the frame encoder ENC (41_frame_encoder.md). -/

namespace Sys2Proof.Machine

/-- The accepted ENCSTART (R123): the header fields are taken, the five header bytes of the span are
summed in this one step, and a frame without payload is complete at once. -/
def startFrame (ty id : Byte) (len : Half) (s : State) : State :=
  { s with
    tType := ty
    tId := id
    tLen := len
    pcnt := 0
    eidx := 0
    acc := accOf (headBytes Config.protoVer ty id len)
    estate := if len = 0 then .emit else .fill }

/-- ENCSTART for a payload buffer of `pmax` bytes (R123): the state check comes before the length check
(60_exceptions.md R243). -/
def encStart (pmax : Nat) (ty id : Byte) (len : Half) (s : State) : Host.Outcome State Fault Refusal :=
  requireEState s .idle
    (if pmax < len.toNat then refuse s .refusedLen else respond (startFrame ty id len s) 0)

/-- R123. -/
def execEncstart (ty id : Byte) (len : Half) (s : State) : Host.Outcome State Fault Refusal :=
  encStart Config.pmax ty id len s

/-- R124: the byte goes to `PBUF[PCNT]` and into `ACC`; the `T_LEN`-th one completes the payload. -/
def execEncpay (b : Byte) (s : State) : Host.Outcome State Fault Refusal :=
  requireEState s .fill
    (respond
      { s with
        pbuf := memWrite s s.pcnt.toNat b
        acc := accAdd s.acc b
        pcnt := s.pcnt + 1
        estate := if payloadComplete s then .emit else .fill } 0)

/-- The frame byte at an offset (R125, 20_memory.md R55). -/
def frameByte (s : State) (k : Nat) : Byte :=
  match k with
  | 0 => accFinal s.acc
  | 1 => Config.protoVer
  | 2 => s.tType
  | 3 => s.tId
  | 4 => loByte s.tLen
  | 5 => hiByte s.tLen
  | i + 6 => memRead s i

/-- R125: one byte of the frame leaves; the last one frees the encoder. -/
def execEncemit (s : State) : Host.Outcome State Fault Refusal :=
  requireEState s .emit
    (respond { s with eidx := s.eidx + 1, estate := if lastFlag s then .idle else .emit }
      (dataEmit (lastFlag s) (frameByte s s.eidx.toNat)))

/-- R126: only `ESTATE` changes, in any state. -/
def execEncabort (s : State) : Host.Outcome State Fault Refusal := respond { s with estate := .idle } 0

end Sys2Proof.Machine
end

