-- ==== Sys2Proof/Machine/Pseudo.lean ====
section
/-! DEFINITION. The pseudo-operations of 30_encoding.md R93, each the fixed sequence of operations it expands to.
WORDBYTES is the function `wordBytes`. -/

namespace Sys2Proof.Machine

/-- `CHECKSUM p`. -/
def pseudoChecksum (p : List Byte) : List Instr := .csinit :: (p.map Instr.csadd ++ [.csfin])

/-- `ENCODE type, id, p`: the length is that of `p`. R120 and R127 define it for at most 65535 bytes; of a
longer payload the length modulo 65536 is presented, the model's choice (DESIGN CHOICE, log entry 27). No
instruction presents one: the payloads of UNLOCKFRAME and CMDFRAME have 8 and 4 bytes. -/
def pseudoEncode (ty id : Byte) (p : List Byte) : List Instr :=
  .encstart ty id (BitVec.ofNat 16 p.length) ::
    (p.map Instr.encpay ++ List.replicate (Config.hdrSize + p.length) .encemit)

/-- `DECODEHDR b0, ..., b5`. -/
def pseudoDecodeHdr (bytes : List Byte) : List Instr := bytes.map Instr.hdpush ++ [.hdget]

/-- `UNLOCKFRAME`, with the id the host gives; R93's own is id 0 (R74). -/
def pseudoUnlockFrame (id : Byte) : List Instr := pseudoEncode Config.typeUnlock id Config.unlockKey

/-- `CMDFRAME op, val`: the host splits the word that PACK returns (43_command_word.md R185). -/
def pseudoCmdFrame (op : BitVec 6) (val : BitVec 22) : List Instr :=
  .pack op val :: pseudoEncode Config.typeMotor 0 (wordBytes (packWord op val))

/-- `STOPFRAME`. -/
def pseudoStopFrame : List Instr := pseudoCmdFrame Config.opStop 0

end Sys2Proof.Machine
end

