-- ==== Sys2Proof/Machine/Frames.lean ====
section
/-! DEFINITION. The rows of the opcode table that are no requests: frame headers (30_encoding.md R70, R76 to R81)
and command words (R78, R87). FCP has no operation that takes one whole; the spec gives, for each, the fixed
sequence of requests by which the host brings it to FCP (R93, R211, R212, R215). That sequence is the meaning:
it is put in front of what the host has still to present, and each request of it has its own step (log entry
10). A frame to the device is encoded, a frame to the host is parsed, a command word is sent. -/

namespace Sys2Proof.Machine

/-- A header to the device begins its frame: the encoder is given the header's type, id and length; the
checksum and version it emits are its own (R120, R122; log entries 12, 13). -/
def presentStart (ty id : Byte) (len : Half) (s : State) : Host.Outcome State Fault Refusal :=
  .next (s.present [.encstart ty id len])

/-- A header to the host is parsed as its six bytes, in wire order (R93 DECODEHDR, R212; log entry 14). -/
def presentParse (h : HeaderValue) (s : State) : Host.Outcome State Fault Refusal :=
  .next (s.present (pseudoDecodeHdr (headerBytes h)))

/-- A command word is sent in a move/status command frame (R185; log entry 16). -/
def presentCommand (op : BitVec 6) (val : BitVec 22) (s : State) : Host.Outcome State Fault Refusal :=
  .next (s.present (pseudoCmdFrame op val))

/-- R70: the generic frame, by its direction. The payload of one to the device is the host's next requests. -/
def execFrame (dir : Direction) (ck ver ty id : Byte) (len : Half) (s : State) :
    Host.Outcome State Fault Refusal :=
  match dir with
  | .toDevice => presentStart ty id len s
  | .toHost => presentParse ⟨ck, ver, ty, id, len⟩ s

/-- R76: the whole frame, since its payload is fixed; the checksum a header carries on input has no
effect (R120; log entry 12). -/
def execUnlock (_ck id : Byte) (s : State) : Host.Outcome State Fault Refusal :=
  .next (s.present (pseudoUnlockFrame id))

/-- R77: its payload never enters FCP (D28). -/
def execLoginReply (ck id : Byte) (s : State) : Host.Outcome State Fault Refusal :=
  presentParse ⟨ck, Config.protoVer, Config.typeLoginReply, id, 7⟩ s

/-- R79: its payload, one command word, is not in the header; the host's next requests give it
(log entry 13). -/
def execMoveStatusCmd (_ck id : Byte) (s : State) : Host.Outcome State Fault Refusal :=
  presentStart Config.typeMotor id 4 s

/-- R80: its payload is not interpreted and never enters FCP (D28). -/
def execStatusReply (ck id : Byte) (s : State) : Host.Outcome State Fault Refusal :=
  presentParse ⟨ck, Config.protoVer, Config.typeMotor, id, 7⟩ s

/-- R81, R215: the host discards its six bytes unparsed; none is given to FCP (log entry 15). -/
def execGreeting (_ck _ver _ty _id : Byte) (s : State) : Host.Outcome State Fault Refusal := .next s

/-- R78: any other command word. -/
def execCw (op : BitVec 6) (val : BitVec 22) (s : State) : Host.Outcome State Fault Refusal :=
  presentCommand op val s

/-- R87. -/
def execRotE (val : BitVec 22) (s : State) : Host.Outcome State Fault Refusal :=
  presentCommand Config.opRotE val s

/-- R87. -/
def execRotF (val : BitVec 22) (s : State) : Host.Outcome State Fault Refusal :=
  presentCommand Config.opRotF val s

/-- R87, R93 STOPFRAME. -/
def execStop (s : State) : Host.Outcome State Fault Refusal := .next (s.present pseudoStopFrame)

end Sys2Proof.Machine
end

