-- ==== Sys2Proof/Machine/Header.lean ====
section
/-! DEFINITION. The operations of the header parser HDP (42_header_parser.md). It validates nothing and never
touches `ACC` or the encoder (R153). -/

namespace Sys2Proof.Machine

/-- R154: one line for each value of `HCNT`. -/
def execHdpush (b : Byte) (s : State) : Host.Outcome State Fault Refusal :=
  match s.hcnt with
  | 0 => respond { s with hCk := b, hvalid := false, hcnt := 1 } (dataValid false)
  | 1 => respond { s with hVer := b, hcnt := 2 } (dataValid false)
  | 2 => respond { s with hType := b, hcnt := 3 } (dataValid false)
  | 3 => respond { s with hId := b, hcnt := 4 } (dataValid false)
  | 4 => respond { s with hLen := joinLen b (hiByte s.hLen), hcnt := 5 } (dataValid false)
  | 5 => respond { s with hLen := joinLen (loByte s.hLen) b, hvalid := true, hcnt := 0 } (dataValid true)

/-- The header the five `H_*` registers hold (10_state.md R31). -/
def heldHeader (s : State) : HeaderValue := ⟨s.hCk, s.hVer, s.hType, s.hId, s.hLen⟩

/-- R155: nothing changes, so it may be repeated. -/
def execHdget (s : State) : Host.Outcome State Fault Refusal :=
  if s.hvalid then respond s (dataHeader (heldHeader s)) else refuse s .refusedState

/-- R156. -/
def execHdclr (s : State) : Host.Outcome State Fault Refusal := respond { s with hcnt := 0, hvalid := false } 0

end Sys2Proof.Machine
end

