-- ==== Sys2Proof/Machine/Packer.lean ====
section
/-! DEFINITION. The operations of the command word packer CWP (43_command_word.md). They read and write no
register (10_state.md R36). -/

namespace Sys2Proof.Machine

/-- R176: no clamp, any opcode. -/
def execPack (op : BitVec 6) (val : BitVec 22) (s : State) : Host.Outcome State Fault Refusal :=
  respond s (dataWord (packWord op val))

/-- R177: total; reserved and action bits are returned. -/
def execUnpack (w : Word) (s : State) : Host.Outcome State Fault Refusal := respond s (dataUnpack w)

end Sys2Proof.Machine
end

