-- ==== Sys2Proof/Machine/Dispatch.lean ====
section
/-! DEFINITION. One arm per row of spec/opcode_table.json. -/

namespace Sys2Proof.Machine

def exec (i : Instr) (s : State) : Host.Outcome State Fault Refusal :=
  match i with
  | .nop => Sys2Proof.Machine.execNop s
  | .csinit => Sys2Proof.Machine.execCsinit s
  | .csadd b => Sys2Proof.Machine.execCsadd b s
  | .csfin => Sys2Proof.Machine.execCsfin s
  | .encstart ty id len => Sys2Proof.Machine.execEncstart ty id len s
  | .encpay b => Sys2Proof.Machine.execEncpay b s
  | .encemit => Sys2Proof.Machine.execEncemit s
  | .encabort => Sys2Proof.Machine.execEncabort s
  | .hdpush b => Sys2Proof.Machine.execHdpush b s
  | .hdget => Sys2Proof.Machine.execHdget s
  | .hdclr => Sys2Proof.Machine.execHdclr s
  | .pack op val => Sys2Proof.Machine.execPack op val s
  | .unpack w => Sys2Proof.Machine.execUnpack w s
  | .reservedD => Sys2Proof.Machine.execReservedD s
  | .reservedE => Sys2Proof.Machine.execReservedE s
  | .reservedF => Sys2Proof.Machine.execReservedF s
  | .frame dir ck ver ty id len => Sys2Proof.Machine.execFrame dir ck ver ty id len s
  | .unlock ck id => Sys2Proof.Machine.execUnlock ck id s
  | .loginReply ck id => Sys2Proof.Machine.execLoginReply ck id s
  | .moveStatusCmd ck id => Sys2Proof.Machine.execMoveStatusCmd ck id s
  | .statusReply ck id => Sys2Proof.Machine.execStatusReply ck id s
  | .greeting ck ver ty id => Sys2Proof.Machine.execGreeting ck ver ty id s
  | .cw op val => Sys2Proof.Machine.execCw op val s
  | .rotE val => Sys2Proof.Machine.execRotE val s
  | .rotF val => Sys2Proof.Machine.execRotF val s
  | .stop => Sys2Proof.Machine.execStop s

end Sys2Proof.Machine
end

