-- ==== Sys2Proof/Machine/Step.lean ====
section
/-! DEFINITION. One step: the host's next input is taken and performed completely (20_memory.md R57). FCP has
no program counter and fetches nothing (10_state.md R22); the host presents each request (log entry 2). -/

namespace Sys2Proof.Machine

/-- The refusal of a transfer that the decoder rejects (log entry 17). -/
def rejected : DecodeReject → Refusal
  | .undescribedHeader => .undescribedHeader
  | .undescribedWord => .undescribedWord

/-- Performs one transfer. -/
def performTransfer (x : Transfer) (s : State) : Host.Outcome State Fault Refusal :=
  match decode x with
  | .ok i => exec i s
  | .error r => .refused (rejected r)

/-- One step. With nothing presented FCP stays as it is, indefinitely (60_exceptions.md R257). -/
def step (s : State) : Host.Outcome State Fault Refusal :=
  match s.inputs with
  | [] => .next s
  | .reset :: rest => .next ({ s with inputs := rest } : State).resetEvent
  | .transfer x :: rest => performTransfer x { s with inputs := rest }

/-- Presents one word of the opcode table, before anything else the host has still to present. A size the
table does not have changes nothing. -/
def State.withFetchWord (s : State) (nbits w : Nat) : State :=
  match transferOfBits nbits w with
  | some x => { s with inputs := .transfer x :: s.inputs }
  | none => s

end Sys2Proof.Machine
end

