-- ==== Sys2Proof/Machine/HostUsage.lean ====
section
/-! DEFINITION. The pure parts of the host that the spec defines for reference (43_command_word.md R179, R180,
45_host_usage.md R210 to R232, 60_exceptions.md R250). The host is no part of FCP (00_scope.md R7), and no
operation uses anything of this file (log entry 20). -/

namespace Sys2Proof.Machine

/-- The clamp of the Coordinator (R179). The numeric type of a speed is not stated (N15); any value below
15 clamps to 15, so an integer is taken (log entry 20). -/
def clampSpeed (speed : Int) : Nat :=
  if speed < Config.speedMin then Config.speedMin
  else if speed > Config.speedMax then Config.speedMax
  else speed.toNat

/-- The directions of `move` (R223). -/
inductive MoveDirection where
  | forward
  | backward
  | stop
  deriving DecidableEq, Repr

/-- A logical command: opcode and operand. -/
structure Command where
  op : BitVec 6
  val : BitVec 22
  deriving DecidableEq, Repr

/-- A motion command with the clamped operand (R180). -/
def motion (op : BitVec 6) (speed : Int) : Command := ⟨op, BitVec.ofNat 22 (clampSpeed speed)⟩

/-- `stop()`: the same command on both channels (R180, R224). -/
def stopCommands : Command × Command := (⟨Config.opStop, 0⟩, ⟨Config.opStop, 0⟩)

/-- The direction table: the commands for channel A and channel B; any other direction sends nothing (R180). -/
def moveCommands (d : Option MoveDirection) (speed : Int) : Option (Command × Command) :=
  match d with
  | none => none
  | some .forward => some (motion Config.opRotE speed, motion Config.opRotF speed)
  | some .backward => some (motion Config.opRotF speed, motion Config.opRotE speed)
  | some .stop => some stopCommands

/-- The word of a command. -/
def Command.word (c : Command) : Word := packWord c.op c.val

/-- The requests of one exchange pair: channel A's frame completely, then channel B's (R223, R226). -/
def exchangeRequests (c : Command × Command) : List Instr :=
  pseudoCmdFrame c.1.op c.1.val ++ pseudoCmdFrame c.2.op c.2.val

/-- The source's error kinds (R250). None is raised by FCP. -/
inductive HostError where
  | connectFailure
  | handshakeDenied
  | ioFailure
  | invalidDirection
  deriving DecidableEq, Repr

/-- Which kinds end the operation (R250). -/
def HostError.fatal : HostError → Bool
  | .connectFailure => true
  | .handshakeDenied => false
  | .ioFailure => true
  | .invalidDirection => false

/-- The accessor of `send_and_await` (R218): the byte at offset 8 when more than 8 bytes were asked for,
else 0; a short read is an I/O failure (R220). -/
def replyByte (reply : List Byte) (count : Nat) : Except HostError Byte :=
  if reply.length < count then .error .ioFailure
  else if 8 < count then .ok (reply.getD 8 0)
  else .ok 0

/-- The outcome of a handshake (R217). -/
inductive ChannelState where
  | ready
  | degraded
  deriving DecidableEq, Repr

/-- `0x01` means Ready, anything else Degraded (R217). -/
def handshakeOutcome (access : Byte) : ChannelState :=
  if access = Config.accessGranted then .ready else .degraded

/-- Payload index of the access-result code of a login reply: "byte index 6 (the 7th payload byte)"
(30_encoding.md R77; 90_conflicts.md C1 takes the frame layout as the definition). -/
def accessResultIndex : Nat := 6

/-- Its frame offset, 12: the last byte of the 13-byte frame (R77). -/
def accessResultOffset : Nat := Config.hdrSize + accessResultIndex

/-- Payload length of a login reply (R77). -/
def loginReplyLength : Nat := 7

/-- The access-result code of a login reply's payload; a payload of another length is no login reply's. -/
def accessResult (payload : List Byte) : Option Byte :=
  if payload.length = loginReplyLength then payload[accessResultIndex]? else none

/-- The handshake's outcome for a host that decides on the access-result code where R77's layout places it
(R217). The spec leaves open which byte a host inspects (R216, D25): that this function takes payload index 6,
frame offset 12, is the model's choice (DESIGN CHOICE, log entry 28). `HostParams.handshake` leaves it open. -/
def loginOutcome (payload : List Byte) : Option ChannelState := (accessResult payload).map handshakeOutcome

/-- The host parameters that the source leaves contradictory or unstated (R10, D25). -/
structure HostParams where
  /-- `N_LOGIN_READ`: bytes taken by the login-reply read -/
  nLoginRead : Nat
  /-- `ACCESS_OFFSET`: frame offset of the access-result byte -/
  accessOffset : Nat
  /-- `N_STATUS_READ`: bytes taken by a status-reply read -/
  nStatusRead : Nat
  /-- `GREETING_TYPE`: the greeting's `command_type` -/
  greetingType : Byte
  deriving DecidableEq, Repr

/-- The ranges of D25. -/
abbrev HostParams.admitted (h : HostParams) : Prop :=
  h.nLoginRead ∈ [6, 11, 12] ∧ h.accessOffset ∈ [12, 8] ∧ h.nStatusRead ∈ [13, 12]

/-- The handshake's outcome by the byte of the login-reply frame at the host's own `ACCESS_OFFSET` (R216, R217,
D25); none when the frame has no such byte. In which of the host's reads the byte comes is not modelled: none of
the counts of `N_LOGIN_READ` reaches offset 12 (R216; log entry 28). -/
def HostParams.handshake (h : HostParams) (frame : List Byte) : Option ChannelState :=
  frame[h.accessOffset]?.map handshakeOutcome

end Sys2Proof.Machine
end

