-- ==== Sys2Proof/Safety.lean ====
section
/-! DEFINITION. The terms in which claims are stated: the invariant of every reachable state (10_state.md R33),
the states a reset leaves (70_reset_and_hazards.md R270), what a host can see of a state (10_state.md R38),
and a run of several steps. -/

namespace Sys2Proof.Machine

/-- The accumulator covers exactly the header fields held and the payload bytes accepted (R33 item 4). -/
def SpanSummed (s : State) : Prop :=
  ∃ p : List Byte, p.length = s.pcnt.toNat ∧ (∀ i (h : i < p.length), s.pbuf.read i = some p[i]) ∧
    s.acc = accOf (headBytes Config.protoVer s.tType s.tId s.tLen ++ p)

/-- The invariants of every reachable state (R33; items 1 and 5 are in the types of `estate` and `hcnt`), with the canonical
form of the buffer and its bound (R50), and one clause more that makes them inductive. -/
structure Inv (s : State) : Prop where
  /-- the buffer is in canonical form -/
  canonical : s.pbuf.wf
  /-- the buffer has no index outside `0..PMAX-1` (R50) -/
  inside : ∀ c ∈ s.pbuf, c.1 < Config.pmax
  /-- item 2 -/
  fill : s.estate = .fill → 1 ≤ s.tLen.toNat ∧ s.tLen.toNat ≤ Config.pmax ∧ s.pcnt.toNat < s.tLen.toNat
  /-- no byte is emitted before the payload is complete (R123, R125, R282); this is what makes item 3 hold
  when the encoder enters `EMIT`, and R33 itself does not list it -/
  unread : s.estate = .fill → s.eidx = 0
  /-- item 3 -/
  emit : s.estate = .emit → s.tLen.toNat ≤ Config.pmax ∧ s.pcnt = s.tLen ∧ s.eidx.toNat ≤ 5 + s.tLen.toNat
  /-- item 4 -/
  summed : s.estate ≠ .idle → SpanSummed s
  /-- item 6 -/
  hvalid : s.hvalid = true → s.hcnt = 0

/-- What R270 says a reset leaves; the unspecified elements may hold anything. -/
structure IsReset (s : State) : Prop where
  acc : s.acc = 0xFF
  estate : s.estate = .idle
  pcnt : s.pcnt = 0
  eidx : s.eidx = 0
  hcnt : s.hcnt = 0
  hvalid : s.hvalid = false

/-- Two states that agree on all that a response can depend on: the encoder's registers and the accepted
payload bytes only while a frame is in progress, each `H_*` register only once its byte of the header
in progress or held was taken (R38). -/
structure SameVisible (s t : State) : Prop where
  acc : s.acc = t.acc
  estate : s.estate = t.estate
  pcnt : s.pcnt = t.pcnt
  eidx : s.eidx = t.eidx
  hcnt : s.hcnt = t.hcnt
  hvalid : s.hvalid = t.hvalid
  inputs : s.inputs = t.inputs
  rsps : s.rsps = t.rsps
  frame : s.estate ≠ .idle → s.tType = t.tType ∧ s.tId = t.tId ∧ s.tLen = t.tLen
  payload : s.estate ≠ .idle → ∀ i < s.pcnt.toNat, s.pbuf.read i = t.pbuf.read i
  held : s.hvalid = true → s.hCk = t.hCk ∧ s.hVer = t.hVer ∧ s.hType = t.hType ∧ s.hId = t.hId ∧ s.hLen = t.hLen
  hCk : 1 ≤ s.hcnt.val → s.hCk = t.hCk
  hVer : 2 ≤ s.hcnt.val → s.hVer = t.hVer
  hType : 3 ≤ s.hcnt.val → s.hType = t.hType
  hId : 4 ≤ s.hcnt.val → s.hId = t.hId
  hLen : 5 ≤ s.hcnt.val → loByte s.hLen = loByte t.hLen

/-- `n` steps of the machine. -/
def runSteps (n : Nat) (s : State) : Host.Outcome State Fault Refusal := Sys2Proof.core.run n s

/-- The responses by which the bytes of a frame leave: `last` is 1 on the final one only (R125, R127). -/
def frameResponses : List Byte → List Response
  | [] => []
  | [b] => [mkResponse .ok (dataEmit true b)]
  | b :: c :: rest => mkResponse .ok (dataEmit false b) :: frameResponses (c :: rest)

/-- The instruction is one of the sixteen operations of the request port (R84). -/
def isOperation : Instr → Bool
  | .nop | .csinit | .csadd _ | .csfin | .encstart _ _ _ | .encpay _ | .encemit | .encabort
  | .hdpush _ | .hdget | .hdclr | .pack _ _ | .unpack _ | .reservedD | .reservedE | .reservedF => true
  | .frame _ _ _ _ _ _ | .unlock _ _ | .loginReply _ _ | .moveStatusCmd _ _ | .statusReply _ _
  | .greeting _ _ _ _ | .cw _ _ | .rotE _ | .rotF _ | .stop => false

/-- The status of the latest response. -/
def lastStatus (s : State) : Option (BitVec 2) := s.rsps.getLast?.map rspStatus

end Sys2Proof.Machine
end

