-- ==== Sys2Proof/Certificates/Slice0/Obligations.lean ====
section
/-! DEFINITION. The statements for the provers. Responses are written out as `{status, data}` (30_encoding.md R83),
and next states as updates of the state before, so that everything not named is unchanged. -/

open Sys2Proof Sys2Proof.Machine

/-! ### Encoding -/

/-- Words written out from R84, R85, R92, R70, R78 and R87 decode to what they stand for. That a request word
is 40 bits wide with its four uppermost bits 0 is the model's choice (log entry 26), and so is the direction with
which a bare header word is read (log entry 11). -/
def Obligations.SampleWordsDecode : Prop :=
  decodeTableWord 40 0x200000003 = some (.csadd 0x03) ∧
  decodeTableWord 40 0x400040002 = some (.encstart 2 0 4) ∧
  decodeTableWord 40 0x5000000E0 = some (.encpay 0xE0) ∧
  decodeTableWord 40 0x8000000F4 = some (.hdpush 0xF4) ∧
  decodeTableWord 40 0xB0000190E = some (.pack 0x0E 100) ∧
  decodeTableWord 40 0xC000190E0 = some (.unpack 0x000190E0) ∧
  decodeTableWord 40 0xF12345678 = some .reservedF ∧
  decodeTableWord 48 0x000800000335 = some (.unlock 0x35 0) ∧
  decodeTableWord 48 0x0007000203F4 = some (.statusReply 0xF4 0) ∧
  decodeTableWord 32 0x000190E0 = some (.rotE 100) ∧
  decodeTableWord 32 0x00000220 = some .stop

/-- Decode and encode agree on every well-formed instruction, with every operand. -/
def Obligations.DecodeOfEncodeIsTheInstruction : Prop :=
  ∀ i : Instr, i.WellFormed = true → decode (encode i) = .ok i

/-- What the decoder accepts it can also write: a header and a command word exactly, a request up to the
argument bits that its operation does not read, which R92 writes as 0. -/
def Obligations.EncodeOfDecodeIsTheTransfer : Prop :=
  ∀ i : Instr,
    (∀ dir w, decode (.hdr dir w) = .ok i → i.WellFormed = true ∧ encode i = .hdr dir w) ∧
    (∀ w, decode (.cw w) = .ok i → i.WellFormed = true ∧ encode i = .cw w) ∧
    (∀ (o : BitVec 4) (a : Word), decode (.req (o ++ a)) = .ok i →
      i.WellFormed = true ∧ encode i = .req (o ++ (a &&& readMask o)))

/-- R85: each operation takes exactly its named argument bits, for every argument. -/
def Obligations.ArgumentFieldsAreTakenAsLaidOut : Prop :=
  ∀ a : Word,
    decode (.req (0x0#4 ++ a)) = .ok .nop ∧
    decode (.req (0x1#4 ++ a)) = .ok .csinit ∧
    decode (.req (0x2#4 ++ a)) = .ok (.csadd (a.extractLsb' 0 8)) ∧
    decode (.req (0x3#4 ++ a)) = .ok .csfin ∧
    decode (.req (0x4#4 ++ a)) = .ok (.encstart (a.extractLsb' 0 8) (a.extractLsb' 8 8) (a.extractLsb' 16 16)) ∧
    decode (.req (0x5#4 ++ a)) = .ok (.encpay (a.extractLsb' 0 8)) ∧
    decode (.req (0x6#4 ++ a)) = .ok .encemit ∧
    decode (.req (0x7#4 ++ a)) = .ok .encabort ∧
    decode (.req (0x8#4 ++ a)) = .ok (.hdpush (a.extractLsb' 0 8)) ∧
    decode (.req (0x9#4 ++ a)) = .ok .hdget ∧
    decode (.req (0xA#4 ++ a)) = .ok .hdclr ∧
    decode (.req (0xB#4 ++ a)) = .ok (.pack (a.extractLsb' 0 6) (a.extractLsb' 6 22)) ∧
    decode (.req (0xC#4 ++ a)) = .ok (.unpack a) ∧
    decode (.req (0xD#4 ++ a)) = .ok .reservedD ∧
    decode (.req (0xE#4 ++ a)) = .ok .reservedE ∧
    decode (.req (0xF#4 ++ a)) = .ok .reservedF

/-- Every frame header, by direction: its fields are those of R70, and they say the variant (30_encoding.md
section 6). What is done with a version other than 3 is the model's choice (log entry 17), and so is that a
header carries its direction (log entry 11). -/
def Obligations.HeadersAreClassifiedByTheirFields : Prop :=
  ∀ w : Header48,
    let ck : Byte := w.extractLsb' 0 8
    let ver : Byte := w.extractLsb' 8 8
    let ty : Byte := w.extractLsb' 16 8
    let id : Byte := w.extractLsb' 24 8
    let len : Half := w.extractLsb' 32 16
    decode (.hdr .toDevice w) =
      (if ver ≠ 3 then .error .undescribedHeader
      else if ty = 0 ∧ len = 8 then .ok (.unlock ck id)
      else if ty = 2 ∧ len = 4 then .ok (.moveStatusCmd ck id)
      else .ok (.frame .toDevice ck 3 ty id len)) ∧
    decode (.hdr .toHost w) =
      (if len = 0 then .ok (.greeting ck ver ty id)
      else if ver = 3 ∧ ty = 1 ∧ len = 7 then .ok (.loginReply ck id)
      else if ver = 3 ∧ ty = 2 ∧ len = 7 then .ok (.statusReply ck id)
      else .ok (.frame .toHost ck ver ty id len))

/-- Every command word: its opcode and operand are those of R78, and the opcode names the command (R87). What is
done with reserved and action bits is the model's choice (log entry 17). -/
def Obligations.CommandWordsAreTakenAsLaidOut : Prop :=
  ∀ w : Word,
    let op : BitVec 6 := w.extractLsb' 4 6
    let val : BitVec 22 := w.extractLsb' 10 22
    decode (.cw w) =
      (if w.extractLsb' 0 3 ≠ 0 ∨ w.extractLsb' 3 1 ≠ 0 then .error .undescribedWord
      else if op = 0x0E then .ok (.rotE val)
      else if op = 0x0F then .ok (.rotF val)
      else if op = 0x22 ∧ val = 0 then .ok .stop
      else .ok (.cw op val))

/-- R82: two requests that differ only in argument bits their operation does not read do the same, in
every state. -/
def Obligations.UnreadArgumentBitsDoNotMatter : Prop :=
  ∀ (o : BitVec 4) (a a' : Word) (s : State), a &&& readMask o = a' &&& readMask o →
    performTransfer (.req (o ++ a)) s = performTransfer (.req (o ++ a')) s

/-- What no row of the opcode table describes is refused by name, and nothing else is: the model's choice
(log entry 17). -/
def Obligations.UndescribedTransfersAreRefused : Prop :=
  (∀ dir w, decode (.hdr dir w) = .error .undescribedHeader ↔
    dir = .toDevice ∧ w.extractLsb' 8 8 ≠ 3#8) ∧
  (∀ w, decode (.cw w) = .error .undescribedWord ↔ w &&& 0xF ≠ 0) ∧
  (∀ w : Request, ∃ i, decode (.req w) = .ok i) ∧
  (∀ dir w r, decode (.hdr dir w) = .error r → r = .undescribedHeader) ∧
  (∀ w r, decode (.cw w) = .error r → r = .undescribedWord) ∧
  (∀ (s : State) x rest, s.inputs = .transfer x :: rest →
    (decode x = .error .undescribedHeader → step s = .refused .undescribedHeader) ∧
    (decode x = .error .undescribedWord → step s = .refused .undescribedWord))

/-! ### Steps and reset -/

/-- A step takes what the host presents next and performs exactly the instruction it decodes to; the
input taken is gone before the instruction runs, and the step adds nothing else. -/
def Obligations.StepRunsTheDecodedInstruction : Prop :=
  ∀ (s : State) (x : Transfer) (rest : List Input) (i : Instr),
    s.inputs = .transfer x :: rest → decode x = .ok i → step s = exec i { s with inputs := rest }

/-- The model's choice (log entries 2 and 23): with nothing presented a step changes nothing, and the reset
event leaves what the host has still to present. -/
def Obligations.WaitingAndResetKeepTheInputs : Prop :=
  (∀ s : State, s.inputs = [] → step s = .next s) ∧
  (∀ (s : State) (rest : List Input), s.inputs = .reset :: rest →
    ∃ t : State, step s = .next t ∧ t.inputs = rest)

/-- R270: the reset event leaves the values of the table, from every state, and gets no response (R271). -/
def Obligations.ResetEventPutsTheResetValues : Prop :=
  ∀ (s : State) (rest : List Input), s.inputs = .reset :: rest →
    ∃ t : State, step s = .next t ∧
      t.acc = 0xFF ∧ t.estate = .idle ∧ t.pcnt = 0 ∧ t.eidx = 0 ∧ t.hcnt = 0 ∧ t.hvalid = false ∧
      t.rsps = s.rsps

/-- The state after reset has the values of R270 and meets the invariant of R33. -/
def Obligations.ResetStateMeetsTheInvariant : Prop :=
  IsReset State.reset ∧ Inv State.reset

/-! ### The operations: what each does, and what it leaves -/

/-- R200. -/
def Obligations.NopAnswersOkAndChangesNothing : Prop :=
  ∀ s : State, exec .nop s = .next { s with rsps := s.rsps ++ [0#2 ++ 0#48] }

/-- R201: in every state. -/
def Obligations.ReservedSelectsAnswerIllegalOp : Prop :=
  ∀ (s : State) (i : Instr), i = .reservedD ∨ i = .reservedE ∨ i = .reservedF →
    exec i s = .next { s with rsps := s.rsps ++ [3#2 ++ 0#48] }

/-- R101. -/
def Obligations.CsinitStartsASum : Prop :=
  ∀ s : State,
    (s.estate = .idle → exec .csinit s = .next { s with acc := 0xFF, rsps := s.rsps ++ [0#2 ++ 0#48] }) ∧
    (s.estate ≠ .idle → exec .csinit s = .next { s with rsps := s.rsps ++ [1#2 ++ 0#48] })

/-- R102. -/
def Obligations.CsaddAddsModulo256 : Prop :=
  ∀ (s : State) (b : Byte),
    (s.estate = .idle → exec (.csadd b) s =
      .next { s with acc := BitVec.ofNat 8 ((s.acc.toNat + b.toNat) % 256), rsps := s.rsps ++ [0#2 ++ 0#48] }) ∧
    (s.estate ≠ .idle → exec (.csadd b) s = .next { s with rsps := s.rsps ++ [1#2 ++ 0#48] })

/-- R103. -/
def Obligations.CsfinReturnsTheInvertedAccumulator : Prop :=
  ∀ s : State,
    (s.estate = .idle → exec .csfin s =
      .next { s with rsps := s.rsps ++ [0#2 ++ (0#40 ++ (s.acc ^^^ 0xFF))] }) ∧
    (s.estate ≠ .idle → exec .csfin s = .next { s with rsps := s.rsps ++ [1#2 ++ 0#48] })

/-- R123: the state check first, then the length check, then the header fields are taken and summed. -/
def Obligations.EncstartBeginsAFrame : Prop :=
  ∀ (s : State) (ty id : Byte) (len : Half),
    (s.estate = .idle → exec (.encstart ty id len) s = .next
      (if Config.pmax < len.toNat then { s with rsps := s.rsps ++ [2#2 ++ 0#48] }
      else
        { s with
          tType := ty
          tId := id
          tLen := len
          pcnt := 0
          eidx := 0
          acc := BitVec.ofNat 8
            ((0xFF + 3 + ty.toNat + id.toNat + len.toNat % 256 + len.toNat / 256) % 256)
          estate := if len = 0 then .emit else .fill
          rsps := s.rsps ++ [0#2 ++ 0#48] })) ∧
    (s.estate ≠ .idle → exec (.encstart ty id len) s = .next { s with rsps := s.rsps ++ [1#2 ++ 0#48] })

/-- Every payload of up to 8 bytes can be announced, whatever `PMAX` is (R10, R287). -/
def Obligations.EncstartAcceptsEveryNamedLength : Prop :=
  ∀ (s : State) (ty id : Byte) (len : Half), s.estate = .idle → len.toNat ≤ 8 →
    ∃ t : State, exec (.encstart ty id len) s = .next t ∧ t.rsps = s.rsps ++ [0#2 ++ 0#48] ∧
      t.tType = ty ∧ t.tId = id ∧ t.tLen = len ∧ t.pcnt = 0 ∧ t.eidx = 0 ∧
      (t.estate = .emit ↔ len = 0) ∧ (t.estate = .fill ↔ len ≠ 0)

/-- R124: the byte is stored at index `PCNT` and nowhere else; `PCNT < PMAX` is part of the invariant. -/
def Obligations.EncpayStoresAPayloadByte : Prop :=
  ∀ (s : State) (b : Byte),
    (s.estate = .fill → s.pcnt.toNat < Config.pmax →
      ∃ m : Memory, m.read s.pcnt.toNat = some b ∧
        (∀ a, a ≠ s.pcnt.toNat → m.read a = s.pbuf.read a) ∧
        exec (.encpay b) s = .next
          { s with
            pbuf := m
            acc := BitVec.ofNat 8 ((s.acc.toNat + b.toNat) % 256)
            pcnt := s.pcnt + 1
            estate := if s.pcnt.toNat + 1 = s.tLen.toNat then .emit else .fill
            rsps := s.rsps ++ [0#2 ++ 0#48] }) ∧
    (s.estate ≠ .fill → exec (.encpay b) s = .next { s with rsps := s.rsps ++ [1#2 ++ 0#48] })

/-- R125: the byte at offset `EIDX` of the frame, `last` with the final one. -/
def Obligations.EncemitReturnsTheNextFrameByte : Prop :=
  ∀ (s : State) (byte : Byte),
    (s.estate = .emit →
      (s.eidx.toNat = 0 ∧ byte = s.acc ^^^ 0xFF ∨
        s.eidx.toNat = 1 ∧ byte = 0x03 ∨
        s.eidx.toNat = 2 ∧ byte = s.tType ∨
        s.eidx.toNat = 3 ∧ byte = s.tId ∨
        s.eidx.toNat = 4 ∧ byte = s.tLen.extractLsb' 0 8 ∨
        s.eidx.toNat = 5 ∧ byte = s.tLen.extractLsb' 8 8 ∨
        6 ≤ s.eidx.toNat ∧ s.pbuf.read (s.eidx.toNat - 6) = some byte) →
      exec .encemit s = .next
        { s with
          eidx := s.eidx + 1
          estate := if s.eidx.toNat = 5 + s.tLen.toNat then .idle else .emit
          rsps := s.rsps ++
            [0#2 ++ (0#39 ++ ((if s.eidx.toNat = 5 + s.tLen.toNat then 1#1 else 0#1) ++ byte))] }) ∧
    (s.estate ≠ .emit → exec .encemit s = .next { s with rsps := s.rsps ++ [1#2 ++ 0#48] })

/-- No byte that the buffer does not hold stops ENCEMIT, unwritten or of no index: some byte is returned, and
nothing is said of it (R8, R38; the form of it is the model's choice, log entries 6 and 9). -/
def Obligations.EncemitCompletesOnEveryBufferByte : Prop :=
  ∀ s : State, s.estate = .emit →
    ∃ byte : Byte, exec .encemit s = .next
      { s with
        eidx := s.eidx + 1
        estate := if s.eidx.toNat = 5 + s.tLen.toNat then .idle else .emit
        rsps := s.rsps ++
          [0#2 ++ (0#39 ++ ((if s.eidx.toNat = 5 + s.tLen.toNat then 1#1 else 0#1) ++ byte))] }

/-- R126. -/
def Obligations.EncabortOnlyFreesTheEncoder : Prop :=
  ∀ s : State, exec .encabort s = .next { s with estate := .idle, rsps := s.rsps ++ [0#2 ++ 0#48] }

/-- R154: one line for each value of `HCNT`, in every encoder state. -/
def Obligations.HdpushTakesTheNextHeaderByte : Prop :=
  ∀ (s : State) (b : Byte),
    (s.hcnt = 0 → exec (.hdpush b) s =
      .next { s with hCk := b, hvalid := false, hcnt := 1, rsps := s.rsps ++ [0#2 ++ 0#48] }) ∧
    (s.hcnt = 1 → exec (.hdpush b) s = .next { s with hVer := b, hcnt := 2, rsps := s.rsps ++ [0#2 ++ 0#48] }) ∧
    (s.hcnt = 2 → exec (.hdpush b) s = .next { s with hType := b, hcnt := 3, rsps := s.rsps ++ [0#2 ++ 0#48] }) ∧
    (s.hcnt = 3 → exec (.hdpush b) s = .next { s with hId := b, hcnt := 4, rsps := s.rsps ++ [0#2 ++ 0#48] }) ∧
    (s.hcnt = 4 → exec (.hdpush b) s =
      .next { s with hLen := s.hLen.extractLsb' 8 8 ++ b, hcnt := 5, rsps := s.rsps ++ [0#2 ++ 0#48] }) ∧
    (s.hcnt = 5 → exec (.hdpush b) s =
      .next { s with
        hLen := b ++ s.hLen.extractLsb' 0 8
        hvalid := true
        hcnt := 0
        rsps := s.rsps ++ [0#2 ++ 1#48] })

/-- R155: repeatable, and refused while no complete header is held. -/
def Obligations.HdgetReturnsTheHeldHeader : Prop :=
  ∀ s : State,
    (s.hvalid = true → exec .hdget s =
      .next { s with rsps := s.rsps ++ [0#2 ++ (s.hLen ++ (s.hId ++ (s.hType ++ (s.hVer ++ s.hCk))))] }) ∧
    (s.hvalid = false → exec .hdget s = .next { s with rsps := s.rsps ++ [1#2 ++ 0#48] })

/-- R156. -/
def Obligations.HdclrDropsTheHeader : Prop :=
  ∀ s : State, exec .hdclr s = .next { s with hcnt := 0, hvalid := false, rsps := s.rsps ++ [0#2 ++ 0#48] }

/-- R176: `pack(op, val)` = `val * 1024 + op * 16`; no state is read or written. -/
def Obligations.PackBuildsTheCommandWord : Prop :=
  ∀ (s : State) (op : BitVec 6) (val : BitVec 22),
    exec (.pack op val) s =
      .next { s with rsps := s.rsps ++ [0#2 ++ BitVec.ofNat 48 (val.toNat * 1024 + op.toNat * 16)] }

/-- R177: total, all four fields returned. -/
def Obligations.UnpackSplitsTheCommandWord : Prop :=
  ∀ (s : State) (w : Word),
    exec (.unpack w) s = .next
      { s with rsps := s.rsps ++ [0#2 ++ (0#16 ++ (w.extractLsb' 0 3 ++
        (w.extractLsb' 3 1 ++ (w.extractLsb' 10 22 ++ w.extractLsb' 4 6))))] }

/-! ### The rows that are no requests: the model's choice, log entries 10 to 16 -/

/-- A header to the device has the encoder begin its frame; the unlock frame, whose payload is fixed, is
encoded whole. No register changes and no response is given by that step itself. -/
def Obligations.HeadersToTheDeviceAreEncoded : Prop :=
  ∀ (s : State) (ck ver ty id : Byte) (len : Half),
    exec (.frame .toDevice ck ver ty id len) s =
      .next { s with inputs := asInputs [.encstart ty id len] ++ s.inputs } ∧
    exec (.moveStatusCmd ck id) s = .next { s with inputs := asInputs [.encstart 2 id 4] ++ s.inputs } ∧
    exec (.unlock ck id) s = .next
      { s with inputs := asInputs ([.encstart 0 id 8, .encpay 0xEF, .encpay 0xCD, .encpay 0xAB, .encpay 0x89,
        .encpay 0x67, .encpay 0x45, .encpay 0x23, .encpay 0x01] ++ List.replicate 14 .encemit) ++ s.inputs }

/-- A header to the host is given to the parser as its six bytes and read back; a greeting is discarded. -/
def Obligations.HeadersToTheHostAreParsed : Prop :=
  ∀ (s : State) (ck ver ty id : Byte) (len : Half),
    exec (.frame .toHost ck ver ty id len) s = .next
      { s with inputs := asInputs [.hdpush ck, .hdpush ver, .hdpush ty, .hdpush id,
        .hdpush (len.extractLsb' 0 8), .hdpush (len.extractLsb' 8 8), .hdget] ++ s.inputs } ∧
    exec (.loginReply ck id) s = .next
      { s with inputs := asInputs [.hdpush ck, .hdpush 3, .hdpush 1, .hdpush id, .hdpush 7, .hdpush 0, .hdget]
        ++ s.inputs } ∧
    exec (.statusReply ck id) s = .next
      { s with inputs := asInputs [.hdpush ck, .hdpush 3, .hdpush 2, .hdpush id, .hdpush 7, .hdpush 0, .hdget]
        ++ s.inputs } ∧
    exec (.greeting ck ver ty id) s = .next s

/-- A command word is packed and sent as the payload of a move/status command frame with id 0. -/
def Obligations.CommandWordsAreSentInAFrame : Prop :=
  ∀ (s : State) (op : BitVec 6) (val : BitVec 22),
    let sent (op : BitVec 6) (val : BitVec 22) : List Input :=
      let w : Word := BitVec.ofNat 32 (val.toNat * 1024 + op.toNat * 16)
      asInputs ([.pack op val, .encstart 2 0 4, .encpay (w.extractLsb' 0 8), .encpay (w.extractLsb' 8 8),
        .encpay (w.extractLsb' 16 8), .encpay (w.extractLsb' 24 8)] ++ List.replicate 10 .encemit)
    exec (.cw op val) s = .next { s with inputs := sent op val ++ s.inputs } ∧
    exec (.rotE val) s = .next { s with inputs := sent 0x0E val ++ s.inputs } ∧
    exec (.rotF val) s = .next { s with inputs := sent 0x0F val ++ s.inputs } ∧
    exec .stop s = .next { s with inputs := sent 0x22 0 ++ s.inputs }

/-- From an idle encoder, the header of an unlock frame with any checksum byte and any id leads to the 14 bytes of
that frame, `last` with the final one, after nine plain OK responses; with id 0 they are the bytes of R76. -/
def Obligations.UnlockHeaderYieldsTheUnlockFrame : Prop :=
  (∀ (s : State) (ck id : Byte) (rest : List Input), s.estate = .idle →
    s.inputs = .transfer (.hdr .toDevice (0x0008#16 ++ (id ++ (0x00#8 ++ (0x03#8 ++ ck))))) :: rest →
    ∃ t : State, runSteps 24 s = .next t ∧ t.inputs = rest ∧ t.estate = .idle ∧
      t.acc = accOf (encodeFrame 3 0 id Config.unlockKey).tail ∧
      t.rsps = s.rsps ++ List.replicate 9 (0#2 ++ 0#48) ++ frameResponses (encodeFrame 3 0 id Config.unlockKey)) ∧
  encodeFrame 3 0 0 Config.unlockKey =
    [0x35, 0x03, 0x00, 0x00, 0x08, 0x00, 0xEF, 0xCD, 0xAB, 0x89, 0x67, 0x45, 0x23, 0x01]

/-- From an idle encoder, every command word leads to the ten bytes of the frame that carries it. -/
def Obligations.CommandWordYieldsItsFrame : Prop :=
  ∀ (s : State) (op : BitVec 6) (val : BitVec 22) (rest : List Input), s.estate = .idle →
    s.inputs = .transfer (.cw (val ++ (op ++ 0#4))) :: rest →
    ∃ t : State, runSteps 17 s = .next t ∧ t.inputs = rest ∧ t.estate = .idle ∧
      t.rsps = s.rsps ++ [0#2 ++ (0#16 ++ (val ++ (op ++ 0#4)))] ++ List.replicate 5 (0#2 ++ 0#48) ++
        frameResponses (encodeFrame 3 2 0 (wordBytes (val ++ (op ++ 0#4))))

/-! ### The pure functions -/

/-- The checksum is the two's-complement negation of the byte sum (40_checksum.md, laws 1 and 2), and a
frame's bytes sum to 0 modulo 256 (law 3; payloads of more than 65535 bytes are no frame values of the spec, log
entry 27). -/
def Obligations.ChecksumIsTheNegatedByteSum : Prop :=
  (∀ p : List Byte, (accOf p).toNat = (255 + (p.map BitVec.toNat).sum) % 256) ∧
  (∀ p : List Byte, (csum p).toNat = (256 - (p.map BitVec.toNat).sum % 256) % 256) ∧
  (∀ (ver ty id : Byte) (p : List Byte), ((encodeFrame ver ty id p).map BitVec.toNat).sum % 256 = 0)

/-- What the checksum sees and does not (40_checksum.md, laws 5, 6, 7). -/
def Obligations.ChecksumOrderAndSingleByteLaws : Prop :=
  (∀ p q : List Byte, p.Perm q → csum p = csum q) ∧
  (∀ p : List Byte, csum (p ++ [0]) = csum p) ∧
  (∀ (p q : List Byte) (b c : Byte), b ≠ c → csum (p ++ b :: q) ≠ csum (p ++ c :: q))

/-- The properties of `encode` (41_frame_encoder.md R128): length, layout, checksum, injectivity. A frame value has
at most 65535 payload bytes (R120); the clauses without that premise say more than the spec (log entry 27). -/
def Obligations.EncodedFrameLayout : Prop :=
  (∀ (ver ty id : Byte) (p : List Byte),
    (encodeFrame ver ty id p).length = 6 + p.length ∧
    (encodeFrame ver ty id p).head? = some (csum (encodeFrame ver ty id p).tail) ∧
    (encodeFrame ver ty id p).drop 6 = p) ∧
  (∀ (ver ty id : Byte) (p : List Byte), p.length ≤ 65535 →
    ((encodeFrame ver ty id p).drop 1).take 5 =
      [ver, ty, id, BitVec.ofNat 8 (p.length % 256), BitVec.ofNat 8 (p.length / 256)]) ∧
  (∀ (ver ty id ver' ty' id' : Byte) (p p' : List Byte),
    encodeFrame ver ty id p = encodeFrame ver' ty' id' p' → ver = ver' ∧ ty = ty' ∧ id = id' ∧ p = p')

/-- The parser's function reads back what the encoder's wrote, its length little-endian (R121, R151). -/
def Obligations.EncoderAndParserAgree : Prop :=
  ∀ (ver ty id : Byte) (p : List Byte), p.length ≤ 65535 →
    ∃ h : HeaderValue, decodeHeaderBytes ((encodeFrame ver ty id p).take 6) = some h ∧
      h.ver = ver ∧ h.ty = ty ∧ h.id = id ∧ h.len.toNat = p.length ∧
      h.ck = csum (encodeFrame ver ty id p).tail

/-- `decode_header` is a bijection between 6-byte sequences and header values, and defined on nothing else. -/
def Obligations.HeaderParsingIsABijection : Prop :=
  (∀ h : HeaderValue, decodeHeaderBytes (headerBytes h) = some h) ∧
  (∀ (bytes : List Byte) (h : HeaderValue), decodeHeaderBytes bytes = some h → headerBytes h = bytes) ∧
  (∀ bytes : List Byte, (decodeHeaderBytes bytes).isSome = true ↔ bytes.length = 6) ∧
  (∀ (b0 b1 b2 b3 b4 b5 : Byte) (h : HeaderValue), decodeHeaderBytes [b0, b1, b2, b3, b4, b5] = some h →
    h.len.toNat = b4.toNat + 256 * b5.toNat)

/-- `unpack(pack(op, val)) == (op, val)` for all valid operands, and `pack` sets neither reserved nor action
bits (R171, the source's law in R173). -/
def Obligations.UnpackInvertsPack : Prop :=
  ∀ (op : BitVec 6) (val : BitVec 22),
    unpackOp (packWord op val) = op ∧ unpackVal (packWord op val) = val ∧
    unpackAct (packWord op val) = 0 ∧ unpackRsv (packWord op val) = 0 ∧
    packNat op.toNat val.toNat = some (packWord op val).toNat

/-- The other direction: packing what was unpacked clears the low four bits, and the four fields determine
the word (43_command_word.md, laws 2 to 4). -/
def Obligations.PackOfUnpackClearsTheLowBits : Prop :=
  (∀ w : Word, packWord (unpackOp w) (unpackVal w) = w &&& 0xFFFFFFF0) ∧
  (∀ w : Word, (∃ op val, packWord op val = w) ↔ w &&& 0xF = 0) ∧
  (∀ w w' : Word, unpackOp w = unpackOp w' → unpackVal w = unpackVal w' → unpackAct w = unpackAct w' →
    unpackRsv w = unpackRsv w' → w = w')

/-- `pack` over naturals has no value outside its domain (92_eei_decisions.md D30). -/
def Obligations.PackOverNaturalsDoesNotTruncate : Prop :=
  ∀ op val : Nat, (packNat op val).isSome = true ↔ op ≤ 63 ∧ val ≤ 4194303

/-- R174: little-endian payload bytes and their inverse. -/
def Obligations.WordBytesAreLittleEndian : Prop :=
  (∀ w : Word, wordBytes w = [w.extractLsb' 0 8, w.extractLsb' 8 8, w.extractLsb' 16 8, w.extractLsb' 24 8]) ∧
  (∀ w : Word, bytesWord (wordBytes w) = some w) ∧
  (∀ b0 b1 b2 b3 : Byte, ∃ w : Word, bytesWord [b0, b1, b2, b3] = some w ∧ wordBytes w = [b0, b1, b2, b3] ∧
    w.toNat = b0.toNat + 256 * b1.toNat + 65536 * b2.toNat + 16777216 * b3.toNat)

/-- The payload bytes of a packed word, field by field (the spec's inference, 43_command_word.md section 1). -/
def Obligations.PackedWordBytesByField : Prop :=
  ∀ (op : BitVec 6) (val : BitVec 22), (wordBytes (packWord op val)).map BitVec.toNat =
    [op.toNat % 16 * 16, op.toNat / 16 + val.toNat % 64 * 4, val.toNat / 64 % 256, val.toNat / 16384]

/-! ### The whole machine -/

/-- Every step keeps the invariants of 10_state.md R33. -/
def Obligations.EveryStepKeepsTheInvariant : Prop :=
  ∀ s t : State, Inv s → step s = .next t → Inv t

/-- A step is total: from every state, reachable or not, it goes on, or it refuses a transfer that the decoder
rejects, by that name; it never faults (R8; the refusal is the model's choice, log entry 17). -/
def Obligations.StepsStopOnlyOnUndescribedTransfers : Prop :=
  (∀ s : State, (∃ t : State, step s = .next t) ∨
    ∃ x rest r, s.inputs = .transfer x :: rest ∧ decode x = .error r ∧ step s = .refused (rejected r)) ∧
  (∀ (s : State) (f : Fault), step s ≠ .fault f)

/-- R83: every request gets exactly one response, in its order, from every state (R8); a refusal's data is 0, and
so is every bit the operation does not name. -/
def Obligations.EveryRequestGetsOneResponse : Prop :=
  ∀ (s : State) (o : BitVec 4) (a : Word) (rest : List Input), s.inputs = .transfer (.req (o ++ a)) :: rest →
    ∃ (t : State) (status : BitVec 2) (data : BitVec 48), step s = .next t ∧ t.inputs = rest ∧
      t.rsps = s.rsps ++ [status ++ data] ∧
      (status ≠ 0 → data = 0) ∧ data &&& ~~~ dataMask o = 0

/-- R244: the state after a refused request is the state before it, but for the response. -/
def Obligations.RefusedRequestChangesNoState : Prop :=
  ∀ (s t : State) (i : Instr), isOperation i = true → exec i s = .next t →
    ∃ r : Response, t.rsps = s.rsps ++ [r] ∧
      (rspStatus r ≠ 0 → rspData r = 0 ∧ t = { s with rsps := s.rsps ++ [r] })

/-- R241 and R243: which operation is refused, when, and with what; `opsel` first, then the state, then the
length. -/
def Obligations.RefusalTableIsComplete : Prop :=
  ∀ (s t : State) (i : Instr), isOperation i = true → exec i s = .next t →
    lastStatus t = some (match i with
      | .reservedD | .reservedE | .reservedF => 3
      | .csinit | .csadd _ | .csfin => if s.estate = .fill ∨ s.estate = .emit then 1 else 0
      | .encstart _ _ len =>
        if s.estate = .fill ∨ s.estate = .emit then 1 else if Config.pmax < len.toNat then 2 else 0
      | .encpay _ => if s.estate = .idle ∨ s.estate = .emit then 1 else 0
      | .encemit => if s.estate = .idle ∨ s.estate = .fill then 1 else 0
      | .hdget => if s.hvalid = false then 1 else 0
      | _ => 0)

/-- R24: the transitions of the encoder's state, and no others. -/
def Obligations.EncoderStateTransitions : Prop :=
  (∀ (s t : State) (i : Instr), isOperation i = true → Inv s → exec i s = .next t →
    t.estate = (match i with
      | .encstart _ _ len =>
        if s.estate = .idle ∧ len.toNat ≤ Config.pmax then (if len = 0 then .emit else .fill) else s.estate
      | .encpay _ =>
        if s.estate = .fill then (if s.pcnt.toNat + 1 < s.tLen.toNat then .fill else .emit) else s.estate
      | .encemit =>
        if s.estate = .emit then (if s.eidx.toNat < 5 + s.tLen.toNat then .emit else .idle) else s.estate
      | .encabort => .idle
      | _ => s.estate)) ∧
  (∀ (s t : State) (rest : List Input), s.inputs = .reset :: rest → step s = .next t → t.estate = .idle)

/-- Only the operations named in the column "written by" of 10_state.md R21 change a register; the buffer
changes under ENCPAY alone, at one index (R50). The header and command word rows change none: the model's choice
(log entry 10). -/
def Obligations.RegistersChangeOnlyUnderTheirWriters : Prop :=
  ∀ (s t : State) (i : Instr), exec i s = .next t →
    ((i ≠ .csinit ∧ (∀ b, i ≠ .csadd b) ∧ (∀ ty id len, i ≠ .encstart ty id len) ∧ (∀ b, i ≠ .encpay b)) →
      t.acc = s.acc) ∧
    ((∀ ty id len, i ≠ .encstart ty id len) → (∀ b, i ≠ .encpay b) → i ≠ .encemit → i ≠ .encabort →
      t.estate = s.estate) ∧
    ((∀ ty id len, i ≠ .encstart ty id len) → t.tType = s.tType ∧ t.tId = s.tId ∧ t.tLen = s.tLen) ∧
    ((∀ ty id len, i ≠ .encstart ty id len) → (∀ b, i ≠ .encpay b) → t.pcnt = s.pcnt) ∧
    ((∀ ty id len, i ≠ .encstart ty id len) → i ≠ .encemit → t.eidx = s.eidx) ∧
    (∀ a, (∀ b, i ≠ .encpay b) ∨ a ≠ s.pcnt.toNat → t.pbuf.read a = s.pbuf.read a) ∧
    ((∀ b, i ≠ .hdpush b) → i ≠ .hdclr → t.hcnt = s.hcnt ∧ t.hvalid = s.hvalid) ∧
    ((∀ b, i ≠ .hdpush b) → t.hCk = s.hCk ∧ t.hVer = s.hVer ∧ t.hType = s.hType ∧ t.hId = s.hId ∧ t.hLen = s.hLen)

/-- While a frame is being read out its checksum cannot change: no instruction of any kind writes `ACC`, the
header fields or the payload in `EMIT` (R125, 70_reset_and_hazards.md R280). -/
def Obligations.FrameIsFixedWhileItIsReadOut : Prop :=
  ∀ (s t : State) (i : Instr), s.estate = .emit → exec i s = .next t →
    t.acc = s.acc ∧ t.tType = s.tType ∧ t.tId = s.tId ∧ t.tLen = s.tLen ∧ t.pcnt = s.pcnt ∧
    ∀ a, t.pbuf.read a = s.pbuf.read a

/-- An HDP, CWP or NOP operation commutes with any CSU or ENC operation: either order gives the same final
registers and the same two responses (20_memory.md R57). -/
def Obligations.ParserAndPackerCommuteWithTheRest : Prop :=
  ∀ (s s1 s2 t1 t2 : State) (i j : Instr),
    ((∃ b, i = .hdpush b) ∨ i = .hdget ∨ i = .hdclr ∨ (∃ op val, i = .pack op val) ∨ (∃ w, i = .unpack w) ∨ i = .nop) →
    (j = .csinit ∨ (∃ b, j = .csadd b) ∨ j = .csfin ∨ (∃ ty id len, j = .encstart ty id len) ∨
      (∃ b, j = .encpay b) ∨ j = .encemit ∨ j = .encabort) →
    exec i s = .next s1 → exec j s1 = .next t1 → exec j s = .next s2 → exec i s2 = .next t2 →
    ∃ ri rj : Response, t1.rsps = s.rsps ++ [ri, rj] ∧ t2.rsps = s.rsps ++ [rj, ri] ∧
      { t1 with rsps := [] } = { t2 with rsps := [] }

/-- Two states within the invariant that agree on all that a response can depend on step alike: the next
states agree again, responses and all (10_state.md R38). -/
def Obligations.UnspecifiedContentsStayHidden : Prop :=
  ∀ s t : State, Inv s → Inv t → SameVisible s t →
    (∃ s' t' : State, step s = .next s' ∧ step t = .next t' ∧ SameVisible s' t') ∨
    (∃ r : Refusal, step s = .refused r ∧ step t = .refused r)

/-- Whatever a reset leaves in the unspecified elements, the same requests and reset events get the same
responses, one for each request (R38, R288). -/
def Obligations.ResponsesDoNotDependOnResetContents : Prop :=
  ∀ s t : State, IsReset s → IsReset t → Inv s → Inv t → s.inputs = t.inputs → s.rsps = [] → t.rsps = [] →
    (∀ x ∈ s.inputs, x = .reset ∨ ∃ w, x = .transfer (.req w)) →
    ∃ s' t' : State, runSteps s.inputs.length s = .next s' ∧ runSteps s.inputs.length t = .next t' ∧
      s'.inputs = [] ∧ s'.rsps = t'.rsps ∧
      s'.rsps.length = (s.inputs.filter (fun x => decide (x ≠ .reset))).length

/-- The pseudo-operation CHECKSUM computes `csum` and leaves `acc_of` (40_checksum.md R104). -/
def Obligations.ChecksumSequenceComputesCsum : Prop :=
  ∀ (s : State) (p : List Byte) (rest : List Input), s.estate = .idle →
    s.inputs = asInputs (.csinit :: (p.map Instr.csadd ++ [.csfin])) ++ rest →
    runSteps (p.length + 2) s = .next
      { s with
        inputs := rest
        acc := accOf p
        rsps := s.rsps ++ List.replicate (p.length + 1) (0#2 ++ 0#48) ++ [0#2 ++ (0#40 ++ csum p)] }

/-- The pseudo-operation ENCODE is accepted at every step and emits exactly the bytes of `encode`
(41_frame_encoder.md R127). -/
def Obligations.EncodeSequenceEmitsTheEncodedFrame : Prop :=
  ∀ (s : State) (ty id : Byte) (p : List Byte) (rest : List Input), s.estate = .idle → p.length ≤ Config.pmax →
    s.inputs = asInputs (.encstart ty id (BitVec.ofNat 16 p.length) ::
      (p.map Instr.encpay ++ List.replicate (6 + p.length) .encemit)) ++ rest →
    ∃ t : State, runSteps (2 * p.length + 7) s = .next t ∧ t.inputs = rest ∧ t.estate = .idle ∧
      t.acc = accOf (encodeFrame 3 ty id p).tail ∧
      t.rsps = s.rsps ++ List.replicate (p.length + 1) (0#2 ++ 0#48) ++ frameResponses (encodeFrame 3 ty id p) ∧
      t.hcnt = s.hcnt ∧ t.hvalid = s.hvalid ∧
      t.hCk = s.hCk ∧ t.hVer = s.hVer ∧ t.hType = s.hType ∧ t.hId = s.hId ∧ t.hLen = s.hLen

/-- The pseudo-operation DECODEHDR returns `decode_header` of its six bytes (42_header_parser.md R157), and
touches neither `ACC` nor the encoder (R153). -/
def Obligations.DecodeHdrSequenceReturnsTheHeader : Prop :=
  ∀ (s : State) (b0 b1 b2 b3 b4 b5 : Byte) (rest : List Input), s.hcnt = 0 →
    s.inputs = asInputs [.hdpush b0, .hdpush b1, .hdpush b2, .hdpush b3, .hdpush b4, .hdpush b5, .hdget] ++ rest →
    runSteps 7 s = .next
      { s with
        inputs := rest
        hcnt := 0
        hvalid := true
        hCk := b0
        hVer := b1
        hType := b2
        hId := b3
        hLen := b5 ++ b4
        rsps := s.rsps ++ List.replicate 5 (0#2 ++ 0#48) ++
          [0#2 ++ 1#48, 0#2 ++ (b5 ++ (b4 ++ (b3 ++ (b2 ++ (b1 ++ b0)))))] }

/-! ### The host's tables -/

/-- The access-result code of a login reply is its payload byte 6 and the last byte of its 13, at frame offset 12,
whatever the other bytes are; `0x01` means access granted, anything else means denied (30_encoding.md R77, C1).
Which byte a host inspects is open (D25): `loginOutcome` decides on that code, which is the model's choice (log
entry 28), and `HostParams.handshake` agrees with it when the host's offset is 12 and inspects payload byte 2 when
it is 8. -/
def Obligations.LoginReplyAccessCodeIsItsLastByte : Prop :=
  ∀ (ck id p0 p1 p2 p3 p4 p5 p6 : Byte),
    let payload := [p0, p1, p2, p3, p4, p5, p6]
    let frame := headerBytes ⟨ck, 3, 1, id, 7⟩ ++ payload
    frame.length = 13 ∧ accessResultOffset = 12 ∧
    accessResult payload = some p6 ∧ frame[accessResultOffset]? = some p6 ∧ frame.getLast? = some p6 ∧
    (loginOutcome payload = some .ready ↔ p6 = 0x01) ∧ (loginOutcome payload = some .degraded ↔ p6 ≠ 0x01) ∧
    (∀ h : HostParams, h.accessOffset = 12 → h.handshake frame = loginOutcome payload) ∧
    (∀ h : HostParams, h.accessOffset = 8 →
      h.handshake frame = some (if p2 = 0x01 then .ready else .degraded))

/-- R179: the clamp, below, inside and above its range. -/
def Obligations.SpeedIsClampedByTheHost : Prop :=
  (∀ v : Int, (v < 15 → clampSpeed v = 15) ∧ (15600 < v → clampSpeed v = 15600) ∧
    (15 ≤ v → v ≤ 15600 → (clampSpeed v : Int) = v)) ∧
  clampSpeed 0 = 15 ∧ clampSpeed 1000000 = 15600 ∧ clampSpeed 100 = 100

/-- R180: the direction table; both channels get the same operand. -/
def Obligations.DirectionTableOfTheHost : Prop :=
  ∀ v : Int, let w (op : BitVec 6) (val : Nat) : Word := BitVec.ofNat 32 (val * 1024 + op.toNat * 16)
    let words (d : Option MoveDirection) := (moveCommands d v).map fun c => (c.1.word, c.2.word)
    words (some .forward) = some (w 0x0E (clampSpeed v), w 0x0F (clampSpeed v)) ∧
    words (some .backward) = some (w 0x0F (clampSpeed v), w 0x0E (clampSpeed v)) ∧
    words (some .stop) = some (w 0x22 0, w 0x22 0) ∧
    (stopCommands.1.word, stopCommands.2.word) = (w 0x22 0, w 0x22 0) ∧
    words none = none
end

