-- ==== Sys2Proof/Laws/Bits.lean ====
section
/-! SUPPORT. The lemmas of the bit-field and byte-order helpers: an extracted field of an assembled word is the
field it was assembled from, and the shift and mask forms of `pack` and `unpack` are the field layout of R78. -/

namespace Sys2Proof

/-! ### Requests (R82, R85) -/

@[simp] theorem opselOf_encodeRequest (o : BitVec 4) (a : Word) : opselOf (encodeRequest o a) = o := by
  unfold opselOf encodeRequest
  ext i h
  grind

@[simp] theorem argOf_encodeRequest (o : BitVec 4) (a : Word) : argOf (encodeRequest o a) = a := by
  unfold argOf encodeRequest
  ext i h
  grind

@[simp] theorem argByte_byteArg (b : Byte) : argByte (byteArg b) = b := by
  unfold argByte byteArg
  ext i h
  grind

@[simp] theorem argByte_startArg (ty id : Byte) (len : Half) : argByte (startArg ty id len) = ty := by
  unfold argByte startArg
  ext i h
  grind

@[simp] theorem argId_startArg (ty id : Byte) (len : Half) : argId (startArg ty id len) = id := by
  unfold argId startArg
  ext i h
  grind

@[simp] theorem argLen_startArg (ty id : Byte) (len : Half) : argLen (startArg ty id len) = len := by
  unfold argLen startArg
  ext i h
  grind

@[simp] theorem argOp_packArg (op : BitVec 6) (val : BitVec 22) : argOp (packArg op val) = op := by
  unfold argOp packArg
  ext i h
  grind

@[simp] theorem argVal_packArg (op : BitVec 6) (val : BitVec 22) : argVal (packArg op val) = val := by
  unfold argVal packArg
  ext i h
  grind

/-- A request is its `opsel` and its `arg` (R82). -/
theorem encodeRequest_opsel_arg (w : Request) : encodeRequest (opselOf w) (argOf w) = w := by
  unfold encodeRequest opselOf argOf
  ext i h
  grind

/-! ### Frame headers (R70) -/

@[simp] theorem hdrCk_encodeHeader (ck ver ty id : Byte) (len : Half) : hdrCk (encodeHeader ck ver ty id len) = ck := by
  unfold hdrCk encodeHeader
  ext i h
  grind

@[simp] theorem hdrVer_encodeHeader (ck ver ty id : Byte) (len : Half) : hdrVer (encodeHeader ck ver ty id len) = ver := by
  unfold hdrVer encodeHeader
  ext i h
  grind

@[simp] theorem hdrType_encodeHeader (ck ver ty id : Byte) (len : Half) : hdrType (encodeHeader ck ver ty id len) = ty := by
  unfold hdrType encodeHeader
  ext i h
  grind

@[simp] theorem hdrId_encodeHeader (ck ver ty id : Byte) (len : Half) : hdrId (encodeHeader ck ver ty id len) = id := by
  unfold hdrId encodeHeader
  ext i h
  grind

@[simp] theorem hdrLen_encodeHeader (ck ver ty id : Byte) (len : Half) : hdrLen (encodeHeader ck ver ty id len) = len := by
  unfold hdrLen encodeHeader
  ext i h
  grind

/-- A header is its five fields (R70). -/
theorem encodeHeader_fields (w : Header48) :
    encodeHeader (hdrCk w) (hdrVer w) (hdrType w) (hdrId w) (hdrLen w) = w := by
  unfold encodeHeader hdrCk hdrVer hdrType hdrId hdrLen
  ext i h
  grind

/-! ### Command words (R78) -/

@[simp] theorem wordOp_encodeWord (op : BitVec 6) (val : BitVec 22) : wordOp (encodeWord op val) = op := by
  unfold wordOp encodeWord
  ext i h
  grind

@[simp] theorem wordVal_encodeWord (op : BitVec 6) (val : BitVec 22) : wordVal (encodeWord op val) = val := by
  unfold wordVal encodeWord
  ext i h
  grind

@[simp] theorem wordAct_encodeWord (op : BitVec 6) (val : BitVec 22) : wordAct (encodeWord op val) = 0 := by
  unfold wordAct encodeWord
  ext i h
  grind

@[simp] theorem wordRsv_encodeWord (op : BitVec 6) (val : BitVec 22) : wordRsv (encodeWord op val) = 0 := by
  unfold wordRsv encodeWord
  ext i h
  grind

/-- A command word is its four fields (R78, R173 law 4). -/
theorem word_fields (w : Word) : wordVal w ++ (wordOp w ++ (wordAct w ++ wordRsv w)) = w := by
  unfold wordVal wordOp wordAct wordRsv
  ext i h
  grind

namespace Machine

/-- `pack` by shifts is the layout of R78. -/
theorem packWord_eq (op : BitVec 6) (val : BitVec 22) : packWord op val = encodeWord op val := by
  unfold packWord encodeWord
  ext i h
  simp
  grind

/-- A shifted and masked field is the field of the layout. -/
theorem masked_field {n k : Nat} (w : Word) (m : Word) (hm : m.toNat = 2 ^ n - 1) :
    ((w >>> k) &&& m).setWidth n = w.extractLsb' k n := by
  apply BitVec.eq_of_toNat_eq
  simp [hm, Nat.and_two_pow_sub_one_eq_mod]

theorem unpackOp_eq (w : Word) : unpackOp w = wordOp w := masked_field w _ rfl
theorem unpackVal_eq (w : Word) : unpackVal w = wordVal w := masked_field w _ rfl
theorem unpackAct_eq (w : Word) : unpackAct w = wordAct w := masked_field w _ rfl
theorem unpackRsv_eq (w : Word) : unpackRsv w = wordRsv w := by
  have h := masked_field (n := 3) (k := 0) w 7 rfl
  simpa [unpackRsv, wordRsv] using h

/-! ### The 16-bit counts (R51, R89) -/

@[simp] theorem joinLen_lo_hi (n : Half) : joinLen (loByte n) (hiByte n) = n := by
  unfold joinLen loByte hiByte
  ext i h
  grind

@[simp] theorem loByte_joinLen (a b : Byte) : loByte (joinLen a b) = a := by
  unfold loByte joinLen
  ext i h
  grind

@[simp] theorem hiByte_joinLen (a b : Byte) : hiByte (joinLen a b) = b := by
  unfold hiByte joinLen
  ext i h
  grind

/-! ### Responses (R83) -/

@[simp] theorem rspStatus_mkResponse (st : Status) (d : BitVec 48) : rspStatus (mkResponse st d) = statusCode st := by
  unfold rspStatus mkResponse
  ext i h
  grind

@[simp] theorem rspData_mkResponse (st : Status) (d : BitVec 48) : rspData (mkResponse st d) = d := by
  unfold rspData mkResponse
  ext i h
  grind

end Machine

end Sys2Proof
end

