-- ==== Sys2Proof/Laws/Memory.lean ====
section
/-! SUPPORT. The laws of the payload buffer: a read after a write, and the canonical form is kept. -/

namespace Sys2Proof.Machine

@[simp] theorem read_nil (a : Nat) : Memory.read [] a = none := rfl

theorem read_cons (c : Host.Cell) (m : Memory) (a : Nat) :
    Memory.read (c :: m) a = if a = c.1 then some c.2 else Memory.read m a := by
  obtain ⟨b, w⟩ := c
  by_cases h : a = b
  · simp [Memory.read, h]
  · have hb : (a == b) = false := by simpa using h
    simp [Memory.read, List.lookup_cons, h, hb]

/-- A byte read after it was written is the byte written. -/
@[simp] theorem read_write_same (m : Memory) (a : Nat) (v : Byte) : (m.write a v).read a = some v := by
  induction m with
  | nil => simp [Memory.write, read_cons]
  | cons c rest ih =>
    obtain ⟨b, w⟩ := c
    unfold Memory.write
    split
    · simp [read_cons]
    · split
      · simp [read_cons]
      · simp_all [read_cons]

/-- A write leaves every other byte as it was. -/
theorem read_write_other (m : Memory) {a a' : Nat} (v : Byte) (h : a' ≠ a) :
    (m.write a v).read a' = m.read a' := by
  induction m with
  | nil => simp [Memory.write, read_cons, h]
  | cons c rest ih =>
    obtain ⟨b, w⟩ := c
    unfold Memory.write
    split
    · simp [read_cons, h]
    · split
      · rename_i _ heq
        subst heq
        simp [read_cons, h]
      · simp [read_cons, ih]

/-- What a write puts into the list: the new cell, and old ones. -/
theorem mem_write {m : Memory} {a : Nat} {v : Byte} {c : Host.Cell} (h : c ∈ m.write a v) :
    c = (a, v) ∨ c ∈ m := by
  induction m with
  | nil => simpa [Memory.write] using h
  | cons d rest ih =>
    obtain ⟨b, w⟩ := d
    unfold Memory.write at h
    split at h
    · simpa using h
    · split at h
      · simp only [List.mem_cons] at h ⊢
        tauto
      · simp only [List.mem_cons] at h ⊢
        rcases h with h | h
        · exact .inr (.inl h)
        · rcases ih h with h | h
          · exact .inl h
          · exact .inr (.inr h)

/-- Every write keeps the canonical form. -/
theorem write_wf {m : Memory} (a : Nat) (v : Byte) (h : m.wf) : (m.write a v).wf := by
  induction m with
  | nil => simp [Memory.wf, Memory.write]
  | cons c rest ih =>
    obtain ⟨b, w⟩ := c
    have hc : (∀ x ∈ rest, b < x.1) ∧ Memory.wf rest := by
      simpa [Memory.wf, List.pairwise_cons] using h
    unfold Memory.write
    split
    · rename_i hab
      refine List.pairwise_cons.mpr ⟨fun y hy => ?_, h⟩
      obtain ⟨x, hx, rfl⟩ := List.mem_map.mp hy
      rcases List.mem_cons.mp hx with rfl | hx
      · exact hab
      · exact hab.trans (hc.1 x hx)
    · split
      · rename_i heq
        subst heq
        exact List.pairwise_cons.mpr ⟨by simpa using hc.1, hc.2⟩
      · refine List.pairwise_cons.mpr ⟨fun y hy => ?_, ih hc.2⟩
        obtain ⟨x, hx, rfl⟩ := List.mem_map.mp hy
        rcases mem_write hx with rfl | hx
        · show b < a
          omega
        · exact hc.1 x hx

/-- A write at an index the buffer has keeps every listed index one it has. -/
theorem write_inside {m : Memory} {a n : Nat} (v : Byte) (ha : a < n) (h : ∀ c ∈ m, c.1 < n) :
    ∀ c ∈ m.write a v, c.1 < n := by
  intro c hc
  rcases mem_write hc with rfl | hc
  · exact ha
  · exact h c hc

/-- The buffer after reset is in canonical form. -/
theorem reset_wf : State.reset.pbuf.wf := by decide

end Sys2Proof.Machine
end

