-- ==== Sys2Proof/Laws/State.lean ====
section
/-! SUPPORT. One lemma per field for each named update of the state (answer, present, the reset event), so that
no later proof unfolds one of them. -/

namespace Sys2Proof.Machine

@[simp] theorem answer_acc (s : State) (st : Status) (d : BitVec 48) : (s.answer st d).acc = s.acc := rfl
@[simp] theorem answer_estate (s : State) (st : Status) (d : BitVec 48) : (s.answer st d).estate = s.estate := rfl
@[simp] theorem answer_tType (s : State) (st : Status) (d : BitVec 48) : (s.answer st d).tType = s.tType := rfl
@[simp] theorem answer_tId (s : State) (st : Status) (d : BitVec 48) : (s.answer st d).tId = s.tId := rfl
@[simp] theorem answer_tLen (s : State) (st : Status) (d : BitVec 48) : (s.answer st d).tLen = s.tLen := rfl
@[simp] theorem answer_pcnt (s : State) (st : Status) (d : BitVec 48) : (s.answer st d).pcnt = s.pcnt := rfl
@[simp] theorem answer_eidx (s : State) (st : Status) (d : BitVec 48) : (s.answer st d).eidx = s.eidx := rfl
@[simp] theorem answer_pbuf (s : State) (st : Status) (d : BitVec 48) : (s.answer st d).pbuf = s.pbuf := rfl
@[simp] theorem answer_hcnt (s : State) (st : Status) (d : BitVec 48) : (s.answer st d).hcnt = s.hcnt := rfl
@[simp] theorem answer_hvalid (s : State) (st : Status) (d : BitVec 48) : (s.answer st d).hvalid = s.hvalid := rfl
@[simp] theorem answer_hCk (s : State) (st : Status) (d : BitVec 48) : (s.answer st d).hCk = s.hCk := rfl
@[simp] theorem answer_hVer (s : State) (st : Status) (d : BitVec 48) : (s.answer st d).hVer = s.hVer := rfl
@[simp] theorem answer_hType (s : State) (st : Status) (d : BitVec 48) : (s.answer st d).hType = s.hType := rfl
@[simp] theorem answer_hId (s : State) (st : Status) (d : BitVec 48) : (s.answer st d).hId = s.hId := rfl
@[simp] theorem answer_hLen (s : State) (st : Status) (d : BitVec 48) : (s.answer st d).hLen = s.hLen := rfl
@[simp] theorem answer_inputs (s : State) (st : Status) (d : BitVec 48) : (s.answer st d).inputs = s.inputs := rfl
@[simp] theorem answer_rsps (s : State) (st : Status) (d : BitVec 48) : (s.answer st d).rsps = s.rsps ++ [mkResponse st d] := rfl
@[simp] theorem answer_fresh (s : State) (st : Status) (d : BitVec 48) : (s.answer st d).fresh = s.fresh := rfl

@[simp] theorem present_acc (s : State) (is : List Instr) : (s.present is).acc = s.acc := rfl
@[simp] theorem present_estate (s : State) (is : List Instr) : (s.present is).estate = s.estate := rfl
@[simp] theorem present_tType (s : State) (is : List Instr) : (s.present is).tType = s.tType := rfl
@[simp] theorem present_tId (s : State) (is : List Instr) : (s.present is).tId = s.tId := rfl
@[simp] theorem present_tLen (s : State) (is : List Instr) : (s.present is).tLen = s.tLen := rfl
@[simp] theorem present_pcnt (s : State) (is : List Instr) : (s.present is).pcnt = s.pcnt := rfl
@[simp] theorem present_eidx (s : State) (is : List Instr) : (s.present is).eidx = s.eidx := rfl
@[simp] theorem present_pbuf (s : State) (is : List Instr) : (s.present is).pbuf = s.pbuf := rfl
@[simp] theorem present_hcnt (s : State) (is : List Instr) : (s.present is).hcnt = s.hcnt := rfl
@[simp] theorem present_hvalid (s : State) (is : List Instr) : (s.present is).hvalid = s.hvalid := rfl
@[simp] theorem present_hCk (s : State) (is : List Instr) : (s.present is).hCk = s.hCk := rfl
@[simp] theorem present_hVer (s : State) (is : List Instr) : (s.present is).hVer = s.hVer := rfl
@[simp] theorem present_hType (s : State) (is : List Instr) : (s.present is).hType = s.hType := rfl
@[simp] theorem present_hId (s : State) (is : List Instr) : (s.present is).hId = s.hId := rfl
@[simp] theorem present_hLen (s : State) (is : List Instr) : (s.present is).hLen = s.hLen := rfl
@[simp] theorem present_inputs (s : State) (is : List Instr) : (s.present is).inputs = asInputs is ++ s.inputs := rfl
@[simp] theorem present_rsps (s : State) (is : List Instr) : (s.present is).rsps = s.rsps := rfl
@[simp] theorem present_fresh (s : State) (is : List Instr) : (s.present is).fresh = s.fresh := rfl

@[simp] theorem resetEvent_acc (s : State) : s.resetEvent.acc = 0xFF := rfl
@[simp] theorem resetEvent_estate (s : State) : s.resetEvent.estate = .idle := rfl
@[simp] theorem resetEvent_tType (s : State) : s.resetEvent.tType = s.freeByte 0 := rfl
@[simp] theorem resetEvent_tId (s : State) : s.resetEvent.tId = s.freeByte 1 := rfl
@[simp] theorem resetEvent_tLen (s : State) : s.resetEvent.tLen = s.freeHalf 2 := rfl
@[simp] theorem resetEvent_pcnt (s : State) : s.resetEvent.pcnt = 0 := rfl
@[simp] theorem resetEvent_eidx (s : State) : s.resetEvent.eidx = 0 := rfl
@[simp] theorem resetEvent_pbuf (s : State) : s.resetEvent.pbuf = [] := rfl
@[simp] theorem resetEvent_hcnt (s : State) : s.resetEvent.hcnt = 0 := rfl
@[simp] theorem resetEvent_hvalid (s : State) : s.resetEvent.hvalid = false := rfl
@[simp] theorem resetEvent_hCk (s : State) : s.resetEvent.hCk = s.freeByte 3 := rfl
@[simp] theorem resetEvent_hVer (s : State) : s.resetEvent.hVer = s.freeByte 4 := rfl
@[simp] theorem resetEvent_hType (s : State) : s.resetEvent.hType = s.freeByte 5 := rfl
@[simp] theorem resetEvent_hId (s : State) : s.resetEvent.hId = s.freeByte 6 := rfl
@[simp] theorem resetEvent_hLen (s : State) : s.resetEvent.hLen = s.freeHalf 7 := rfl
@[simp] theorem resetEvent_inputs (s : State) : s.resetEvent.inputs = s.inputs := rfl
@[simp] theorem resetEvent_rsps (s : State) : s.resetEvent.rsps = s.rsps := rfl
@[simp] theorem resetEvent_fresh (s : State) : s.resetEvent.fresh = s.fresh + 8 := rfl

end Sys2Proof.Machine
end

