-- ==== Sys2Proof/Laws/Ops.lean ====
section
/-! SUPPORT. For each shared operation, one lemma that says everything it can do; and the same for a step and a
run. Later proofs cite these instead of unfolding. -/

namespace Sys2Proof.Machine

/-! ### Answers -/

theorem respond_next {s t : State} {d : BitVec 48} (h : respond s d = .next t) : t = s.answer .ok d := by
  simpa [respond, eq_comm] using h

theorem refuse_next {s t : State} {st : Status} (h : refuse s st = .next t) : t = s.answer st 0 := by
  simpa [refuse, eq_comm] using h

theorem requireEState_same {s : State} {e : EState} (k : Host.Outcome State Fault Refusal) (h : s.estate = e) :
    requireEState s e k = k := if_pos h

theorem requireEState_other {s : State} {e : EState} (k : Host.Outcome State Fault Refusal) (h : s.estate ≠ e) :
    requireEState s e k = .next (s.answer .refusedState 0) := if_neg h

/-- A state check goes on, or refuses and changes nothing else. -/
theorem requireEState_cases {s : State} {e : EState} {k o : Host.Outcome State Fault Refusal}
    (h : requireEState s e k = o) :
    (s.estate = e ∧ k = o) ∨ (s.estate ≠ e ∧ o = .next (s.answer .refusedState 0)) := by
  by_cases he : s.estate = e
  · exact .inl ⟨he, by rwa [requireEState_same k he] at h⟩
  · exact .inr ⟨he, by rw [← h, requireEState_other k he]⟩

/-! ### The payload buffer -/

/-- A read gives the byte held; of a byte that is not held nothing can be said. -/
theorem memRead_held {s : State} {a : Nat} {b : Byte} (hb : s.pbuf.read a = some b) : memRead s a = b := by
  simp [memRead, hb]

/-- A write replaces the one byte inside the buffer. -/
theorem memWrite_inside {s : State} {a : Nat} (v : Byte) (h : a < Config.pmax) :
    memWrite s a v = s.pbuf.write a v := if_pos h

/-- A write leaves every byte outside the one index as it was, wherever the index is. -/
theorem memWrite_read_other {s : State} {a a' : Nat} (v : Byte) (h : a' ≠ a) :
    (memWrite s a v).read a' = s.pbuf.read a' := by
  unfold memWrite
  split
  · exact read_write_other _ _ h
  · rfl

/-- A payload byte of the frame is the buffer's (R55). -/
theorem frameByte_payload (s : State) (i : Nat) : frameByte s (i + 6) = memRead s i := rfl

/-! ### Totality (00_scope.md R8) -/

/-- A state check goes on when what follows it does. -/
theorem requireEState_total {s : State} {e : EState} {k : Host.Outcome State Fault Refusal} (h : ∃ t, k = .next t) :
    ∃ t, requireEState s e k = .next t := by
  unfold requireEState refuse
  split
  · exact h
  · exact ⟨_, rfl⟩

/-! ### The checksum accumulator -/

@[simp] theorem accFrom_nil (a : Byte) : accFrom a [] = a := rfl

@[simp] theorem accFrom_cons (a b : Byte) (s : List Byte) : accFrom a (b :: s) = accFrom (accAdd a b) s := rfl

/-- The accumulator can be carried across any split of the span (R105 law 4). -/
theorem accFrom_append (a : Byte) (s t : List Byte) : accFrom a (s ++ t) = accFrom (accFrom a s) t :=
  List.foldl_append

/-- The accumulator over naturals (R105 law 1). -/
theorem accFrom_toNat (a : Byte) (s : List Byte) :
    (accFrom a s).toNat = (a.toNat + (s.map BitVec.toNat).sum) % 256 := by
  induction s generalizing a with
  | nil => simp [Nat.mod_eq_of_lt a.isLt]
  | cons b s ih =>
    rw [accFrom_cons, ih]
    simp only [accAdd, BitVec.toNat_add, List.map_cons, List.sum_cons]
    omega

/-! ### Pseudo-operations -/

@[simp] theorem asInputs_nil : asInputs [] = [] := rfl

@[simp] theorem asInputs_cons (i : Instr) (is : List Instr) :
    asInputs (i :: is) = .transfer (encode i) :: asInputs is := rfl

@[simp] theorem asInputs_append (is js : List Instr) : asInputs (is ++ js) = asInputs is ++ asInputs js :=
  List.map_append

/-! ### Steps and runs -/

/-- What a transfer can do: the decoded instruction runs, or the transfer is refused by name. -/
theorem performTransfer_ok {x : Transfer} {i : Instr} (s : State) (h : decode x = .ok i) :
    performTransfer x s = exec i s := by simp [performTransfer, h]

/-- Everything a step that goes on can have done. -/
theorem step_next {s t : State} (h : step s = .next t) :
    (s.inputs = [] ∧ t = s) ∨
    (∃ rest, s.inputs = .reset :: rest ∧ t = ({ s with inputs := rest } : State).resetEvent) ∨
    (∃ x i rest, s.inputs = .transfer x :: rest ∧ decode x = .ok i ∧ exec i { s with inputs := rest } = .next t) := by
  unfold step at h
  split at h
  · exact .inl ⟨‹_›, by simpa [eq_comm] using h⟩
  · exact .inr (.inl ⟨_, ‹_›, by simpa [eq_comm] using h⟩)
  · rename_i x rest hin
    cases hd : decode x with
    | error r => simp [performTransfer, hd] at h
    | ok i =>
      rw [performTransfer_ok _ hd] at h
      exact .inr (.inr ⟨x, i, rest, hin, hd, h⟩)

/-- A transfer that decodes is performed by the step that takes it. -/
theorem step_transfer {s : State} {x : Transfer} {i : Instr} {rest : List Input}
    (hin : s.inputs = .transfer x :: rest) (hd : decode x = .ok i) :
    step s = exec i { s with inputs := rest } := by
  simp [step, hin, performTransfer, hd]

@[simp] theorem runSteps_zero (s : State) : runSteps 0 s = .next s := rfl

/-- The first step of a run that goes on. -/
theorem runSteps_succ {s t : State} (n : Nat) (h : step s = .next t) : runSteps (n + 1) s = runSteps n t := by
  have hc : Sys2Proof.core.step s = .next t := h
  simp only [runSteps, Host.Core.run, hc]
  rfl

/-- A run can be cut into two. -/
theorem runSteps_add {s t : State} (m n : Nat) (h : runSteps m s = .next t) :
    runSteps (m + n) s = runSteps n t := by
  induction m generalizing s with
  | zero =>
    simp only [runSteps_zero, Host.Outcome.next.injEq] at h
    simp [h]
  | succ m ih =>
    have hs : ∃ u, step s = .next u ∧ runSteps m u = .next t := by
      simp only [runSteps, Host.Core.run] at h
      split at h
      · exact ⟨_, ‹_›, h⟩
      · cases h
      · cases h
    obtain ⟨u, hu, hr⟩ := hs
    rw [show m + 1 + n = m + n + 1 from by omega, runSteps_succ _ hu]
    exact ih hr

end Sys2Proof.Machine
end

