-- ==== Sys2Proof/Laws/PerInstr.lean ====
section
/-! SUPPORT. The statements made per instruction. RoundTrip: a well-formed instruction is decoded from its own
encoding, with every operand (30_encoding.md R70, R78, R82, R84, R85). -/

namespace Sys2Proof.Laws.RoundTrip

/-- Decoding the encoding of a well-formed instruction gives it back. -/
def Statement (i : Instr) : Prop := i.WellFormed = true → decode (encode i) = .ok i

/-- A request is decoded by its `opsel` and its `arg` alone. -/
theorem decode_request (o : BitVec 4) (a : Word) (i : Instr)
    (h : ∀ w, opselOf w = o → argOf w = a → decodeRequest w = i) : decode (.req (encodeRequest o a)) = .ok i := by
  simp only [decode, h _ (opselOf_encodeRequest o a) (argOf_encodeRequest o a)]

theorem nop : Statement .nop := fun _ =>
  decode_request _ _ _ fun w ho _ => by simp [decodeRequest, ho]

theorem csinit : Statement .csinit := fun _ =>
  decode_request _ _ _ fun w ho _ => by simp [decodeRequest, ho]

theorem csadd (b : Byte) : Statement (.csadd b) := fun _ =>
  decode_request _ _ _ fun w ho ha => by simp [decodeRequest, ho, ha]

theorem csfin : Statement .csfin := fun _ =>
  decode_request _ _ _ fun w ho _ => by simp [decodeRequest, ho]

theorem encstart (ty id : Byte) (len : Half) : Statement (.encstart ty id len) := fun _ =>
  decode_request _ _ _ fun w ho ha => by simp [decodeRequest, ho, ha]

theorem encpay (b : Byte) : Statement (.encpay b) := fun _ =>
  decode_request _ _ _ fun w ho ha => by simp [decodeRequest, ho, ha]

theorem encemit : Statement .encemit := fun _ =>
  decode_request _ _ _ fun w ho _ => by simp [decodeRequest, ho]

theorem encabort : Statement .encabort := fun _ =>
  decode_request _ _ _ fun w ho _ => by simp [decodeRequest, ho]

theorem hdpush (b : Byte) : Statement (.hdpush b) := fun _ =>
  decode_request _ _ _ fun w ho ha => by simp [decodeRequest, ho, ha]

theorem hdget : Statement .hdget := fun _ =>
  decode_request _ _ _ fun w ho _ => by simp [decodeRequest, ho]

theorem hdclr : Statement .hdclr := fun _ =>
  decode_request _ _ _ fun w ho _ => by simp [decodeRequest, ho]

theorem pack (op : BitVec 6) (val : BitVec 22) : Statement (.pack op val) := fun _ =>
  decode_request _ _ _ fun w ho ha => by simp [decodeRequest, ho, ha]

theorem unpack (w : Word) : Statement (.unpack w) := fun _ =>
  decode_request _ _ _ fun w ho ha => by simp [decodeRequest, ho, ha]

theorem reservedD : Statement .reservedD := fun _ =>
  decode_request _ _ _ fun w ho _ => by simp [decodeRequest, ho]

theorem reservedE : Statement .reservedE := fun _ =>
  decode_request _ _ _ fun w ho _ => by simp [decodeRequest, ho]

theorem reservedF : Statement .reservedF := fun _ =>
  decode_request _ _ _ fun w ho _ => by simp [decodeRequest, ho]

theorem frame (dir : Direction) (ck ver ty id : Byte) (len : Half) : Statement (.frame dir ck ver ty id len) := by
  intro h
  cases dir with
  | toDevice =>
    have hg : genericToDevice ver ty len := by simpa only [Instr.WellFormed, decide_eq_true_eq] using h
    simp only [encode, decode, decodeHeader, hdrVer_encodeHeader, hdrCk_encodeHeader, hdrType_encodeHeader,
      hdrId_encodeHeader, hdrLen_encodeHeader, ne_eq, hg.1, not_true_eq_false, if_false, if_neg hg.2.1, if_neg hg.2.2]
  | toHost =>
    have hg : genericToHost ver ty len := by simpa only [Instr.WellFormed, decide_eq_true_eq] using h
    simp only [encode, decode, decodeHeader, hdrVer_encodeHeader, hdrCk_encodeHeader, hdrType_encodeHeader,
      hdrId_encodeHeader, hdrLen_encodeHeader, if_neg hg.1, if_neg hg.2.1, if_neg hg.2.2]

theorem unlock (ck id : Byte) : Statement (.unlock ck id) := fun _ => by
  simp [encode, decode, decodeHeader, Config.typeUnlock]

theorem loginReply (ck id : Byte) : Statement (.loginReply ck id) := fun _ => by
  simp [encode, decode, decodeHeader, Config.typeLoginReply]

theorem moveStatusCmd (ck id : Byte) : Statement (.moveStatusCmd ck id) := fun _ => by
  simp [encode, decode, decodeHeader, Config.typeUnlock, Config.typeMotor]

theorem statusReply (ck id : Byte) : Statement (.statusReply ck id) := fun _ => by
  simp [encode, decode, decodeHeader, Config.typeLoginReply, Config.typeMotor]

theorem greeting (ck ver ty id : Byte) : Statement (.greeting ck ver ty id) := fun _ => by
  simp [encode, decode, decodeHeader]

theorem cw (op : BitVec 6) (val : BitVec 22) : Statement (.cw op val) := by
  intro h
  have hg : genericWord op val := by simpa only [Instr.WellFormed, decide_eq_true_eq] using h
  simp only [encode, decode, decodeWord, wordRsv_encodeWord, wordAct_encodeWord, wordOp_encodeWord,
    wordVal_encodeWord, ne_eq, not_true_eq_false, or_self, if_false, if_neg hg.1, if_neg hg.2.1, if_neg hg.2.2]

theorem rotE (val : BitVec 22) : Statement (.rotE val) := fun _ => by
  simp [encode, decode, decodeWord]

theorem rotF (val : BitVec 22) : Statement (.rotF val) := fun _ => by
  simp [encode, decode, decodeWord, Config.opRotE, Config.opRotF]

theorem stop : Statement .stop := fun _ => by
  simp [encode, decode, decodeWord, Config.opRotE, Config.opRotF, Config.opStop]

end Sys2Proof.Laws.RoundTrip
end

