-- ==== Sys2Proof/Tests/Slice0.lean ====
section
/-! SUPPORT. The model's own tests. Expected values are the spec's: the vectors V<n>, H<n> and the programs P<n> of
95_test_vectors.md, the examples of the rules, or the encoding tables of 30_encoding.md. After them, for
every statement with hypotheses, a witness: a concrete state and operands that meet them together. -/

namespace Sys2Proof.Tests

open Sys2Proof.Machine

/-- One field of the state after a step that went on. -/
def after {α : Type} (o : Host.Outcome State Fault Refusal) (f : State → α) : Option α :=
  match o with
  | .next t => some (f t)
  | .fault _ => none
  | .refused _ => none

/-- The latest response. -/
def answerOf (s : State) : Option Response := s.rsps.getLast?

/-- A response of R92's form: status digit and data. -/
def rsp (status data : Nat) : Option Response := some (BitVec.ofNat 50 (status * 2 ^ 48 + data))

/-- The encoder in FILL after `ENCSTART type=2, id=0, len=4` and one payload byte (R132 row 3). -/
def filling : State :=
  { State.reset with acc := 0xE8, estate := .fill, tType := 2, tLen := 4, pcnt := 1, pbuf := [(0, 0xE0)] }

/-- The encoder in EMIT with the frame of R132 complete and byte `k` next. -/
def emitting (k : Nat) : State :=
  { State.reset with
    acc := 0x79
    estate := .emit
    tType := 2
    tLen := 4
    pcnt := 4
    eidx := BitVec.ofNat 17 k
    pbuf := [(0, 0xE0), (1, 0x90), (2, 0x01), (3, 0x00)] }

/-- The parser with `k` bytes of the header of R159 taken. -/
def parsing (k : Nat) : State :=
  { State.reset with hcnt := Fin.ofNat 6 k, hCk := 0xF4, hVer := 3, hType := 2, hId := 0, hLen := 0xAB07 }

/-- The parser holding the header of R159. -/
def holding : State :=
  { State.reset with hvalid := true, hCk := 0xF4, hVer := 3, hType := 2, hId := 0, hLen := 7 }

/-- A state with one transfer presented. -/
def presented (x : Transfer) : State := { State.reset with inputs := [.transfer x] }

/-! ### WellFormed: each check refuses an ill-formed term -/

theorem test_wf_frame_unlock : (Instr.frame .toDevice 0 3 0 0 8).WellFormed = false := by decide
theorem test_wf_frame_moveStatusCmd : (Instr.frame .toDevice 0 3 2 0 4).WellFormed = false := by decide
theorem test_wf_frame_version : (Instr.frame .toDevice 0 4 9 0 1).WellFormed = false := by decide
theorem test_wf_frame_version_toHost : (Instr.frame .toHost 0 4 1 0 7).WellFormed = true := by decide
theorem test_wf_frame_greeting : (Instr.frame .toHost 0 3 0 0 0).WellFormed = false := by decide
theorem test_wf_frame_loginReply : (Instr.frame .toHost 0 3 1 0 7).WellFormed = false := by decide
theorem test_wf_frame_statusReply : (Instr.frame .toHost 0 3 2 0 7).WellFormed = false := by decide
theorem test_wf_cw_rotE : (Instr.cw 0x0E 100).WellFormed = false := by decide
theorem test_wf_cw_rotF : (Instr.cw 0x0F 100).WellFormed = false := by decide
theorem test_wf_cw_stop : (Instr.cw 0x22 0).WellFormed = false := by decide
theorem test_wf_cw_stop_operand : (Instr.cw 0x22 1).WellFormed = true := by decide

/-! ### Decode: one word for each row, written out from R84, R85 (requests `o_aaaaaaaa`), R70, R76 to R81
(`HDR48`, last wire byte first) and R78, R87 -/

theorem test_decode_nop : decodeTableWord 40 0x0DEADBEEF = some .nop := by decide
theorem test_decode_csinit : decodeTableWord 40 0x100000000 = some .csinit := by decide
theorem test_decode_csadd : decodeTableWord 40 0x2FFFFFF01 = some (.csadd 1) := by decide
theorem test_decode_csfin : decodeTableWord 40 0x300000000 = some .csfin := by decide
theorem test_decode_encstart : decodeTableWord 40 0x400010102 = some (.encstart 2 1 1) := by decide
theorem test_decode_encpay : decodeTableWord 40 0x5000000E0 = some (.encpay 0xE0) := by decide
theorem test_decode_encemit : decodeTableWord 40 0x600000000 = some .encemit := by decide
theorem test_decode_encabort : decodeTableWord 40 0x700000000 = some .encabort := by decide
theorem test_decode_hdpush : decodeTableWord 40 0x8000000F4 = some (.hdpush 0xF4) := by decide
theorem test_decode_hdget : decodeTableWord 40 0x900000000 = some .hdget := by decide
theorem test_decode_hdclr : decodeTableWord 40 0xA00000000 = some .hdclr := by decide
theorem test_decode_pack : decodeTableWord 40 0xBF000190E = some (.pack 0x0E 100) := by decide
theorem test_decode_unpack : decodeTableWord 40 0xC80000000 = some (.unpack 0x80000000) := by decide
theorem test_decode_reservedD : decodeTableWord 40 0xD00000000 = some .reservedD := by decide
theorem test_decode_reservedE : decodeTableWord 40 0xEFFFFFFFF = some .reservedE := by decide
theorem test_decode_reservedF : decodeTableWord 40 0xF12345678 = some .reservedF := by decide
theorem test_decode_frame : decodeTableWord 48 0x0001010203AA = some (.frame .toDevice 0xAA 3 2 1 1) := by decide
theorem test_decode_unlock : decodeTableWord 48 0x000800000335 = some (.unlock 0x35 0) := by decide
theorem test_decode_loginReply : decodeTableWord 48 0x0007000103F4 = some (.loginReply 0xF4 0) := by decide
theorem test_decode_moveStatusCmd : decodeTableWord 48 0x000400020386 = some (.moveStatusCmd 0x86 0) := by decide
theorem test_decode_statusReply : decodeTableWord 48 0x0007000203F4 = some (.statusReply 0xF4 0) := by decide
theorem test_decode_greeting : decode (.hdr .toHost 0x0000000203FB) = .ok (.greeting 0xFB 3 2 0) := rfl
theorem test_decode_cw : decodeTableWord 32 0x00000410 = some (.cw 1 1) := by decide
theorem test_decode_rotE : decodeTableWord 32 0x00F3C0E0 = some (.rotE 15600) := by decide
theorem test_decode_rotF : decodeTableWord 32 0x00003CF0 = some (.rotF 15) := by decide
theorem test_decode_stop : decodeTableWord 32 0x00000220 = some .stop := by decide
/-- R88: a header of version 7 cannot be encoded; the other way it is parsed. -/
theorem test_decode_rejects_header : decode (.hdr .toDevice 0x1234AA090700) = .error .undescribedHeader := rfl
theorem test_decode_version_of_the_table : decodeTableWord 48 0x1234AA090700 = some (.frame .toHost 0 7 9 0xAA 0x1234) := by
  decide
/-- R88: the action bit is set. -/
theorem test_decode_rejects_word : decodeTableWord 32 0x00000008 = none := by decide

/-! ### One step of each operation -/

/-- V76, V77, through `step` and the table word. -/
theorem test_nop : after (step (State.reset.withFetchWord 40 0x0DEADBEEF)) answerOf = some (rsp 0 0) := by decide
/-- R101, from a used accumulator. -/
theorem test_csinit : after (exec .csinit { State.reset with acc := 5 }) State.acc = some 0xFF := by decide
/-- V84. -/
theorem test_csinit_refused : after (exec .csinit filling) (fun t => (t.acc, answerOf t)) = some (0xE8, rsp 1 0) := by
  decide
/-- V3: the carry is discarded. -/
theorem test_csadd_wraps : after (exec (.csadd 1) State.reset) State.acc = some 0 := by decide
/-- R102. -/
theorem test_csadd : after (exec (.csadd 3) State.reset) State.acc = some 2 := by decide
/-- R103; `ACC` is unchanged. -/
theorem test_csfin : after (exec .csfin { State.reset with acc := 2 }) (fun t => (t.acc, answerOf t)) =
    some (2, rsp 0 0xFD) := by decide
/-- R132 row 2. -/
theorem test_encstart : after (exec (.encstart 2 0 4) State.reset)
    (fun t => (t.acc, t.estate, t.tLen, t.pcnt)) = some (0x08, .fill, 4, 0) := by decide
/-- V43: with `PMAX = 8` a length of 9 is refused and `ACC` untouched. -/
theorem test_encstart_refusedLen :
    after (encStart 8 2 0 9 State.reset) (fun t => (t.acc, t.estate, answerOf t)) = some (0xFF, .idle, rsp 2 0) := by
  decide
/-- R132 row 4. -/
theorem test_encpay : after (exec (.encpay 0x90) filling) (fun t => (t.acc, t.estate, t.pcnt, t.pbuf.read 1)) =
    some (0x78, .fill, 2, some 0x90) := by decide
/-- R132 row 6: the last payload byte completes the frame. -/
theorem test_encpay_last : after (exec (.encpay 0) { filling with pcnt := 3, acc := 0x79 }) State.estate =
    some .emit := by decide
/-- R8: total also where no run comes. -/
theorem test_encpay_beyond_the_buffer :
    after (exec (.encpay 1) { filling with pcnt := 65535 }) (fun t => (t.acc, t.pcnt, answerOf t)) = some (0xE9, 0, rsp 0 0) := by
  decide
/-- R132 row 7: the checksum first. -/
theorem test_encemit_first : after (exec .encemit (emitting 0)) (fun t => (t.eidx, answerOf t)) =
    some (1, rsp 0 0x86) := by decide
/-- R132 row 16: `last` with the tenth byte. -/
theorem test_encemit_last : after (exec .encemit (emitting 9)) (fun t => (t.estate, t.eidx, answerOf t)) =
    some (.idle, 10, rsp 0 0x100) := by decide
/-- V90: only `ESTATE` changes. -/
theorem test_encabort : after (exec .encabort filling) (fun t => (t.estate, t.acc, t.pcnt)) =
    some (.idle, 0xE8, 1) := by decide
/-- R159 row 6: the high half of `H_LEN` keeps its old value. -/
theorem test_hdpush_fifth : after (exec (.hdpush 0x34) (parsing 4)) (fun t => (t.hLen, t.hcnt, answerOf t)) =
    some (0xAB34, 5, rsp 0 0) := by decide
/-- R159 row 7. -/
theorem test_hdpush_sixth : after (exec (.hdpush 0) (parsing 5)) (fun t => (t.hLen, t.hcnt, t.hvalid, answerOf t)) =
    some (7, 0, true, rsp 0 1) := by decide
/-- R159 row 8. -/
theorem test_hdget : after (exec .hdget holding) answerOf = some (rsp 0 0x0007000203F4) := by decide
/-- V89. -/
theorem test_hdget_refused : after (exec .hdget State.reset) answerOf = some (rsp 1 0) := by decide
/-- V92. -/
theorem test_hdclr : after (exec .hdclr (parsing 3)) (fun t => (t.hcnt, t.hvalid, t.hCk)) = some (0, false, 0xF4) := by
  decide
/-- V55. -/
theorem test_pack : after (exec (.pack 0x0E 15600) State.reset) answerOf = some (rsp 0 0x00F3C0E0) := by decide
/-- V58. -/
theorem test_pack_largest : after (exec (.pack 63 4194303) State.reset) answerOf = some (rsp 0 0xFFFFFFF0) := by decide
/-- V74. -/
theorem test_unpack : after (exec (.unpack 0x00F3C0E0) State.reset) answerOf = some (rsp 0 0x0F3C0E) := by decide
/-- V67. -/
theorem test_unpack_low_bits : after (exec (.unpack 0x0000000F) State.reset) answerOf = some (rsp 0 0xF0000000) := by
  decide
/-- V78, V79, V80: in any state, here `FILL`. -/
theorem test_reservedD : after (exec .reservedD filling) answerOf = some (rsp 3 0) := by decide
theorem test_reservedE : after (exec .reservedE filling) answerOf = some (rsp 3 0) := by decide
theorem test_reservedF : after (exec .reservedF filling) answerOf = some (rsp 3 0) := by decide
/-- V38: the header of a one-byte frame begins it. -/
theorem test_frame_toDevice : after (exec (.frame .toDevice 0x4F 3 2 1 1) State.reset) State.inputs =
    some [.transfer (.req 0x400010102)] := by decide
/-- V50: the header's six bytes, then HDGET. -/
theorem test_frame_toHost : after (exec (.frame .toHost 0 7 9 0xAA 0x1234) State.reset) State.inputs =
    some [.transfer (.req 0x800000000), .transfer (.req 0x800000007), .transfer (.req 0x800000009),
      .transfer (.req 0x8000000AA), .transfer (.req 0x800000034), .transfer (.req 0x800000012),
      .transfer (.req 0x900000000)] := by decide
/-- P1: the first requests of the unlock frame, and their number. -/
theorem test_unlock : after (exec (.unlock 0 0) State.reset) (fun t => (t.inputs.take 3, t.inputs.length)) =
    some ([.transfer (.req 0x400080000), .transfer (.req 0x5000000EF), .transfer (.req 0x5000000CD)], 23) := by decide
/-- P5 step 4. -/
theorem test_loginReply : after (exec (.loginReply 0xF4 0) State.reset) State.inputs =
    some [.transfer (.req 0x8000000F4), .transfer (.req 0x800000003), .transfer (.req 0x800000001),
      .transfer (.req 0x800000000), .transfer (.req 0x800000007), .transfer (.req 0x800000000),
      .transfer (.req 0x900000000)] := by decide
/-- P4 step 2: the frame's first request. -/
theorem test_moveStatusCmd : after (exec (.moveStatusCmd 0x86 0) State.reset) State.inputs =
    some [.transfer (.req 0x400040002)] := by decide
/-- P4 step 4. -/
theorem test_statusReply : after (exec (.statusReply 0xF4 0) State.reset) (fun t => t.inputs.take 3) =
    some [.transfer (.req 0x8000000F4), .transfer (.req 0x800000003), .transfer (.req 0x800000002)] := by decide
/-- P5: the greeting is not given to FCP. -/
theorem test_greeting : after (exec (.greeting 0xFB 3 2 0) State.reset) (fun t => (t.inputs, t.rsps)) =
    some ([], []) := by decide
/-- V60, then V34's frame. -/
theorem test_cw : after (exec (.cw 1 1) State.reset) (fun t => (t.inputs.take 3, t.inputs.length)) =
    some ([.transfer (.req 0xB00000041), .transfer (.req 0x400040002), .transfer (.req 0x500000010)], 16) := by decide
/-- P4 steps 1 and 2. -/
theorem test_rotE : after (exec (.rotE 100) State.reset) (fun t => t.inputs.take 4) =
    some [.transfer (.req 0xB0000190E), .transfer (.req 0x400040002), .transfer (.req 0x5000000E0),
      .transfer (.req 0x500000090)] := by decide
/-- P4 steps 5 and 6. -/
theorem test_rotF : after (exec (.rotF 100) State.reset) (fun t => t.inputs.take 3) =
    some [.transfer (.req 0xB0000190F), .transfer (.req 0x400040002), .transfer (.req 0x5000000F0)] := by decide
/-- V57, V30. -/
theorem test_stop : after (exec .stop State.reset) (fun t => t.inputs.take 4) =
    some [.transfer (.req 0xB00000022), .transfer (.req 0x400040002), .transfer (.req 0x500000020),
      .transfer (.req 0x500000002)] := by decide
/-- R270, from the middle of a frame. -/
theorem test_reset_event : after (step { filling with inputs := [.reset] })
    (fun t => (t.acc, t.estate, t.pcnt, t.rsps)) = some (0xFF, .idle, 0, []) := by decide

/-! ### The pure functions -/

/-- V20. -/
theorem test_csum : csum [0x03, 0, 0, 0x08, 0, 0xEF, 0xCD, 0xAB, 0x89, 0x67, 0x45, 0x23, 0x01] = 0x35 := by decide
/-- V1, V2. -/
theorem test_csum_empty : csum [] = 0 ∧ csum [0] = 0 := by decide
/-- V31. -/
theorem test_encode_unlock : encodeFrame 3 0 0 Config.unlockKey =
    [0x35, 0x03, 0, 0, 0x08, 0, 0xEF, 0xCD, 0xAB, 0x89, 0x67, 0x45, 0x23, 0x01] := by decide
/-- V50. -/
theorem test_decode_header : decodeHeaderBytes [0, 7, 9, 0xAA, 0x34, 0x12] = some ⟨0, 7, 9, 0xAA, 0x1234⟩ := by decide
/-- V62. -/
theorem test_word_bytes : wordBytes (packWord 0x0E 1000000) = [0xE0, 0x00, 0x09, 0x3D] := by decide
/-- D30. -/
theorem test_packNat_domain : packNat 64 0 = none ∧ packNat 0 4194304 = none := by decide
/-- H3, H4. -/
theorem test_directions : (moveCommands (some .backward) 100).map (fun c => (c.1.word, c.2.word)) =
    some (0x000190F0, 0x000190E0) := by decide
/-- H7: offset 8, not the access-result byte. -/
theorem test_reply_byte :
    replyByte [0xF4, 3, 1, 0, 7, 0, 0, 0, 0, 0, 0, 0, 1] 13 = .ok 0 ∧ replyByte [0, 0, 0, 0, 0, 0] 6 = .ok 0 := ⟨rfl, rfl⟩

/-- R77: the code is payload byte 6, whatever offset 8 of the frame holds; eight bytes are no login reply's. -/
theorem test_access_result : loginOutcome [0, 0, 9, 0, 0, 0, 1] = some .ready ∧
    loginOutcome [1, 1, 1, 1, 1, 1, 0] = some .degraded ∧ accessResult [0, 0, 0, 0, 0, 0, 1, 0] = none := by decide
/-- D25: the two offsets a host may inspect can disagree. -/
theorem test_handshake_offsets :
    (⟨12, 12, 13, 0⟩ : HostParams).handshake [0, 3, 1, 0, 7, 0, 0, 0, 0, 0, 0, 0, 1] = some .ready ∧
    (⟨12, 8, 13, 0⟩ : HostParams).handshake [0, 3, 1, 0, 7, 0, 0, 0, 0, 0, 0, 0, 1] = some .degraded ∧
    (⟨12, 12, 13, 0⟩ : HostParams).admitted ∧ (⟨12, 8, 13, 0⟩ : HostParams).admitted := by decide

/-! ### Witnesses: states and operands that meet the hypotheses of a statement -/

theorem witness_DecodeOfEncodeIsTheInstruction : (Instr.cw 1 1).WellFormed = true := by decide
theorem witness_EncodeOfDecodeIsTheTransfer :
    decode (.hdr .toDevice 0x000800000335) = .ok (.unlock 0x35 0) ∧ decode (.cw 0x00000410) = .ok (.cw 1 1) ∧
    decode (.req (0x2#4 ++ 0xFFFFFF01#32)) = .ok (.csadd 1) := ⟨rfl, rfl, rfl⟩
theorem witness_UnreadArgumentBitsDoNotMatter :
    (0xFFFFFF01 : Word) &&& readMask 0x2 = 0x00000001 &&& readMask 0x2 ∧
    (0xF000190E : Word) &&& readMask 0xB = 0x0000190E &&& readMask 0xB := by decide
theorem witness_UndescribedTransfersAreRefused :
    decode (.hdr .toDevice 0x1234AA090700) = .error .undescribedHeader ∧
    decode (.cw 0x00000008) = .error .undescribedWord ∧
    (presented (.cw 0x00000008)).inputs = .transfer (.cw 0x00000008) :: [] ∧
    (presented (.hdr .toDevice 0x1234AA090700)).inputs = .transfer (.hdr .toDevice 0x1234AA090700) :: [] := ⟨rfl, rfl, rfl, rfl⟩
theorem witness_StepRunsTheDecodedInstruction :
    (presented (.req 0x200000003)).inputs = .transfer (.req 0x200000003) :: [] ∧
    decode (.req 0x200000003) = .ok (.csadd 3) := ⟨rfl, rfl⟩
theorem witness_WaitingAndResetKeepTheInputs : State.reset.inputs = [] ∧
    ({ filling with inputs := [.reset] } : State).inputs = .reset :: [] := ⟨rfl, rfl⟩
theorem witness_ResetEventPutsTheResetValues :
    ({ filling with inputs := [.reset] } : State).inputs = .reset :: [] := rfl
theorem witness_ReservedSelectsAnswerIllegalOp :
    (Instr.reservedD = .reservedD) ∧ (Instr.reservedE = .reservedE) ∧ (Instr.reservedF = .reservedF) := by decide
/-- For CSINIT, CSADD, CSFIN, ENCSTART: both clauses. -/
theorem witness_idle_and_not : State.reset.estate = .idle ∧ filling.estate ≠ .idle ∧ (emitting 0).estate ≠ .idle := by
  decide
theorem witness_EncstartAcceptsEveryNamedLength : State.reset.estate = .idle ∧ (8 : Half).toNat ≤ 8 := by decide
theorem witness_EncpayStoresAPayloadByte :
    filling.estate = .fill ∧ filling.pcnt.toNat < Config.pmax ∧ State.reset.estate ≠ .fill := by decide
/-- Every clause, at its boundary: offsets 0 to 5, the first and the last payload byte. -/
theorem witness_EncemitReturnsTheNextFrameByte :
    (emitting 0).estate = .emit ∧ (emitting 0).eidx.toNat = 0 ∧ (0x86 : Byte) = (emitting 0).acc ^^^ 0xFF ∧
    (emitting 1).eidx.toNat = 1 ∧ (emitting 2).eidx.toNat = 2 ∧ (emitting 3).eidx.toNat = 3 ∧
    (emitting 4).eidx.toNat = 4 ∧ (4 : Byte) = (emitting 4).tLen.extractLsb' 0 8 ∧
    (emitting 5).eidx.toNat = 5 ∧ (0 : Byte) = (emitting 5).tLen.extractLsb' 8 8 ∧
    (6 ≤ (emitting 6).eidx.toNat ∧
      (emitting 6).pbuf.read ((emitting 6).eidx.toNat - 6) = some 0xE0) ∧
    (6 ≤ (emitting 9).eidx.toNat ∧
      (emitting 9).pbuf.read ((emitting 9).eidx.toNat - 6) = some 0x00) ∧
    filling.estate ≠ .emit := by decide
theorem witness_EncemitCompletesOnEveryBufferByte :
    ({ emitting 9 with pbuf := [] } : State).estate = .emit := by decide
theorem witness_HdpushTakesTheNextHeaderByte :
    (parsing 0).hcnt = 0 ∧ (parsing 1).hcnt = 1 ∧ (parsing 2).hcnt = 2 ∧ (parsing 3).hcnt = 3 ∧
    (parsing 4).hcnt = 4 ∧ (parsing 5).hcnt = 5 := by decide
theorem witness_HdgetReturnsTheHeldHeader : holding.hvalid = true ∧ State.reset.hvalid = false := by decide
theorem witness_UnlockHeaderYieldsTheUnlockFrame :
    (presented (.hdr .toDevice 0x000800000335)).estate = .idle ∧
    (presented (.hdr .toDevice 0x000800000335)).inputs =
      .transfer (.hdr .toDevice (0x0008#16 ++ (0#8 ++ (0x00#8 ++ (0x03#8 ++ 0x35#8))))) :: [] := ⟨rfl, rfl⟩
theorem witness_CommandWordYieldsItsFrame :
    (presented (.cw (100#22 ++ (0x0E#6 ++ 0#4)))).estate = .idle ∧
    (presented (.cw (100#22 ++ (0x0E#6 ++ 0#4)))).inputs = .transfer (.cw (100#22 ++ (0x0E#6 ++ 0#4))) :: [] := ⟨rfl, rfl⟩
theorem witness_ChecksumOrderAndSingleByteLaws : [1, 2, 3].Perm ([3, 2, 1] : List Byte) ∧ (1 : Byte) ≠ 2 := by decide
theorem witness_EncoderAndParserAgree : Config.unlockKey.length ≤ 65535 := by decide
theorem witness_EncodedFrameLayout : encodeFrame 3 0 0 [1] = encodeFrame 3 0 0 [1] := rfl
theorem witness_HeaderParsingIsABijection : (decodeHeaderBytes [0x35, 3, 0, 0, 8, 0]).isSome = true := by decide
theorem witness_PackOfUnpackClearsTheLowBits : unpackOp (0x000190E0 : Word) = unpackOp 0x000190E0 := rfl

/-- The invariant holds in the middle of a payload, whatever is presented. -/
theorem witness_inv_filling (l : List Input) : Inv { filling with inputs := l } where
  canonical := show filling.pbuf.wf by decide
  inside := show ∀ c ∈ filling.pbuf, c.1 < Config.pmax by decide
  fill := fun _ => show 1 ≤ filling.tLen.toNat ∧ filling.tLen.toNat ≤ Config.pmax ∧
    filling.pcnt.toNat < filling.tLen.toNat by decide
  unread := fun _ => rfl
  emit := fun h => by cases h
  summed := fun _ => ⟨[0xE0], rfl, fun i h => by
    have : i = 0 := by simpa using h
    subst this
    rfl, show filling.acc = accOf (headBytes Config.protoVer filling.tType filling.tId filling.tLen ++ [0xE0]) by
      decide⟩
  hvalid := fun h => by cases h

/-- A step goes on from a state within the invariant. -/
theorem witness_EveryStepKeepsTheInvariant :
    Inv { filling with inputs := [.transfer (.req 0x500000090)] } ∧
    after (step { filling with inputs := [.transfer (.req 0x500000090)] }) State.pcnt = some 2 :=
  ⟨witness_inv_filling _, by decide⟩
theorem witness_EveryRequestGetsOneResponse :
    ({ filling with inputs := [.transfer (.req (0x5#4 ++ 0x90#32))] } : State).inputs =
      .transfer (.req (0x5#4 ++ 0x90#32)) :: [] := rfl
theorem witness_RefusedRequestChangesNoState :
    isOperation .encemit = true ∧ after (exec .encemit filling) answerOf = some (rsp 1 0) := by decide
theorem witness_RefusalTableIsComplete :
    isOperation (.encstart 0 0 9) = true ∧ after (exec (.encstart 0 0 9) filling) lastStatus = some (some 1) := by decide
theorem witness_EncoderStateTransitions : isOperation (.encpay 0x90) = true ∧ Inv { filling with inputs := [] } ∧
    after (exec (.encpay 0x90) { filling with inputs := [] }) State.estate = some .fill :=
  ⟨rfl, witness_inv_filling _, by decide⟩
theorem witness_EncoderStateTransitions_last : after (exec (.encpay 0) { filling with pcnt := 3 }) State.estate = some .emit ∧
    after (step { filling with inputs := [.reset] }) State.estate = some .idle := by decide
theorem witness_RegistersChangeOnlyUnderTheirWriters : after (exec .hdclr holding) State.hCk = some 0xF4 := by decide
theorem witness_FrameIsFixedWhileItIsReadOut :
    (emitting 0).estate = .emit ∧ after (exec .encemit (emitting 0)) State.acc = some 0x79 := by decide
theorem witness_ParserAndPackerCommuteWithTheRest :
    ∃ s1 t1 s2 t2 : State, exec (.hdpush 1) filling = .next s1 ∧ exec (.encpay 2) s1 = .next t1 ∧
      exec (.encpay 2) filling = .next s2 ∧ exec (.hdpush 1) s2 = .next t2 := ⟨_, _, _, _, rfl, rfl, rfl, rfl⟩
/-- Two states a reset may leave, with different unspecified contents and the same request presented. -/
def resetSeven : State := { State.reset with tType := 7, inputs := [.transfer (.req 0x900000000)] }
@[inherit_doc resetSeven] def resetNine : State :=
  { State.reset with hLen := 0x1234, inputs := [.transfer (.req 0x900000000)] }

theorem witness_inv_resetSeven : Inv resetSeven :=
  ⟨by decide, by decide, nofun, nofun, nofun, fun h => absurd rfl h, nofun⟩
theorem witness_inv_resetNine : Inv resetNine :=
  ⟨by decide, by decide, nofun, nofun, nofun, fun h => absurd rfl h, nofun⟩

theorem witness_ResponsesDoNotDependOnResetContents :
    IsReset resetSeven ∧ IsReset resetNine ∧ Inv resetSeven ∧ Inv resetNine ∧
    resetSeven.inputs = resetNine.inputs ∧ resetSeven.rsps = [] ∧ resetNine.rsps = [] ∧
    (∀ x ∈ resetSeven.inputs, x = .reset ∨ ∃ w, x = .transfer (.req w)) :=
  ⟨⟨rfl, rfl, rfl, rfl, rfl, rfl⟩, ⟨rfl, rfl, rfl, rfl, rfl, rfl⟩, witness_inv_resetSeven, witness_inv_resetNine,
    rfl, rfl, rfl, fun _ hx => .inr ⟨_, List.mem_singleton.mp hx⟩⟩

theorem witness_sameVisible : SameVisible resetSeven resetNine where
  acc := rfl
  estate := rfl
  pcnt := rfl
  eidx := rfl
  hcnt := rfl
  hvalid := rfl
  inputs := rfl
  rsps := rfl
  frame := fun h => absurd rfl h
  payload := fun h => absurd rfl h
  held := nofun
  hCk := fun _ => rfl
  hVer := fun _ => rfl
  hType := fun _ => rfl
  hId := fun _ => rfl
  hLen := fun h => absurd h (by decide)

theorem witness_UnspecifiedContentsStayHidden :
    Inv resetSeven ∧ Inv resetNine ∧ SameVisible resetSeven resetNine :=
  ⟨witness_inv_resetSeven, witness_inv_resetNine, witness_sameVisible⟩

/-- An idle state with the requests of a pseudo-operation presented. -/
def withRequests (is : List Instr) : State := { State.reset with inputs := asInputs is }

theorem witness_ChecksumSequenceComputesCsum :
    (withRequests (.csinit :: (([1, 2] : List Byte).map Instr.csadd ++ [.csfin]))).estate = .idle ∧
    (withRequests (.csinit :: (([1, 2] : List Byte).map Instr.csadd ++ [.csfin]))).inputs =
      asInputs (.csinit :: (([1, 2] : List Byte).map Instr.csadd ++ [.csfin])) ++ [] := ⟨rfl, rfl⟩
theorem witness_EncodeSequenceEmitsTheEncodedFrame :
    let p : List Byte := Config.unlockKey
    let is : List Instr := .encstart 0 0 (BitVec.ofNat 16 p.length) ::
      (p.map Instr.encpay ++ List.replicate (6 + p.length) .encemit)
    (withRequests is).estate = .idle ∧ p.length ≤ Config.pmax ∧ (withRequests is).inputs = asInputs is ++ [] :=
  ⟨rfl, Config.eight_le_pmax, rfl⟩
theorem witness_DecodeHdrSequenceReturnsTheHeader :
    let is : List Instr := [.hdpush 0x35, .hdpush 3, .hdpush 0, .hdpush 0, .hdpush 8, .hdpush 0, .hdget]
    (withRequests is).hcnt = 0 ∧ (withRequests is).inputs = asInputs is ++ [] := ⟨rfl, rfl⟩
theorem witness_SpeedIsClampedByTheHost : ((14 : Int) < 15) ∧ ((15600 : Int) < 15601) ∧ (15 : Int) ≤ 15 ∧ (15 : Int) ≤ 15600 := by
  decide

end Sys2Proof.Tests
end

/-! ## The encoder's state under each operation (10_state.md R24) -/

namespace Sys2Proof.Machine

/-! ### What the shared operations do to `ESTATE` -/

theorem respond_estate {s t : State} {d : BitVec 48} (h : respond s d = .next t) : t.estate = s.estate := by
  rw [respond_next h, answer_estate]

/-- An operation that answers from a state with the old `ESTATE` keeps it. -/
theorem respond_keeps_estate {s u t : State} {d : BitVec 48} (h : respond u d = .next t)
    (hu : u.estate = s.estate) : t.estate = s.estate := (respond_estate h).trans hu

theorem refuse_estate {s t : State} {st : Status} (h : refuse s st = .next t) : t.estate = s.estate := by
  rw [refuse_next h, answer_estate]

/-- A state check keeps `ESTATE` or hands over to what follows it. -/
theorem requireEState_estate {s t : State} {e : EState} {k : Host.Outcome State Fault Refusal} {x : EState}
    (hk : s.estate = e → k = .next t → t.estate = x) (h : requireEState s e k = .next t) :
    t.estate = if s.estate = e then x else s.estate := by
  obtain ⟨he, hnext⟩ | ⟨he, hrefused⟩ := requireEState_cases h
  · rw [if_pos he, hk he hnext]
  · obtain rfl : t = s.answer .refusedState 0 := by simpa using hrefused
    rw [if_neg he, answer_estate]

/-- A checked operation that answers from a state with the old `ESTATE` keeps it, accepted or refused. -/
theorem requireEState_respond_keeps_estate {s u t : State} {e : EState} {d : BitVec 48}
    (h : requireEState s e (respond u d) = .next t) (hu : u.estate = s.estate) : t.estate = s.estate := by
  simpa using requireEState_estate (fun _ hr => respond_keeps_estate hr hu) h

/-! ### The end tests of the counters, within the invariant -/

/-- In FILL the counter has not passed the length (R33 item 2), so the equality test of R124 is an order. -/
theorem payloadComplete_eq_false_iff {s : State} (hinv : Inv s) (hfill : s.estate = .fill) :
    payloadComplete s = false ↔ s.pcnt.toNat + 1 < s.tLen.toNat := by
  obtain ⟨-, -, hlt⟩ := hinv.fill hfill
  simp only [payloadComplete, decide_eq_false_iff_not]
  omega

/-- In EMIT the index has not passed the last byte (R33 item 3), so the equality test of R125 is an order. -/
theorem lastFlag_eq_false_iff {s : State} (hinv : Inv s) (hemit : s.estate = .emit) :
    lastFlag s = false ↔ s.eidx.toNat < 5 + s.tLen.toNat := by
  obtain ⟨-, -, hle⟩ := hinv.emit hemit
  simp only [lastFlag, decide_eq_false_iff_not]
  omega

/-! ### The four operations that write `ESTATE` -/

/-- The two ENCSTART lines of R24; a refused one, for the state or for the length, changes nothing. -/
theorem execEncstart_estate {s t : State} {ty id : Byte} {len : Half} (h : execEncstart ty id len s = .next t) :
    t.estate =
      if s.estate = .idle ∧ len.toNat ≤ Config.pmax then (if len = 0 then .emit else .fill) else s.estate := by
  rw [ite_and]
  refine requireEState_estate (fun _ hk => ?_) h
  split at hk
  case isTrue hlong => rw [if_neg (Nat.not_le.mpr hlong), refuse_estate hk]
  case isFalse hfits => rw [if_pos (Nat.not_lt.mp hfits), respond_estate hk]; rfl

/-- The two ENCPAY lines of R24. -/
theorem execEncpay_estate {s t : State} {b : Byte} (hinv : Inv s) (h : execEncpay b s = .next t) :
    t.estate = if s.estate = .fill then (if s.pcnt.toNat + 1 < s.tLen.toNat then .fill else .emit) else s.estate := by
  refine requireEState_estate (fun hfill hk => ?_) h
  rw [respond_estate hk]
  simp only [← payloadComplete_eq_false_iff hinv hfill]
  cases payloadComplete s <;> rfl

/-- The two ENCEMIT lines of R24. -/
theorem execEncemit_estate {s t : State} (hinv : Inv s) (h : execEncemit s = .next t) :
    t.estate = if s.estate = .emit then (if s.eidx.toNat < 5 + s.tLen.toNat then .emit else .idle) else s.estate := by
  refine requireEState_estate (fun hemit hk => ?_) h
  rw [respond_estate hk]
  simp only [← lastFlag_eq_false_iff hinv hemit]
  cases lastFlag s <;> rfl

/-- The ENCABORT line of R24. -/
theorem execEncabort_estate {s t : State} (h : execEncabort s = .next t) : t.estate = .idle := respond_estate h

/-! ### The header parser leaves `ESTATE` alone (42_header_parser.md R153) -/

theorem execHdpush_estate {s t : State} {b : Byte} (h : execHdpush b s = .next t) : t.estate = s.estate := by
  unfold execHdpush at h
  split at h <;> exact respond_keeps_estate h rfl

theorem execHdget_estate {s t : State} (h : execHdget s = .next t) : t.estate = s.estate := by
  unfold execHdget at h
  split at h
  · exact respond_estate h
  · exact refuse_estate h

/-! ### The reset event -/

theorem step_reset_estate {s t : State} {rest : List Input} (hin : s.inputs = .reset :: rest)
    (h : step s = .next t) : t.estate = .idle := by
  obtain rfl : ({ s with inputs := rest } : State).resetEvent = t := by simpa [step, hin] using h
  exact resetEvent_estate _

/-- Settles O49, by the operation: the four that write `ESTATE` by their lines of R24, each other one by its
unit's way to answer. -/
theorem encoderStateTransitions : Obligations.EncoderStateTransitions := by
  refine ⟨fun s t i hop hinv h => ?_, fun s t rest => step_reset_estate⟩
  cases i with
  | encstart ty id len => exact execEncstart_estate h
  | encpay b => exact execEncpay_estate hinv h
  | encemit => exact execEncemit_estate hinv h
  | encabort => exact execEncabort_estate h
  | csinit | csadd b | csfin => exact requireEState_respond_keeps_estate h rfl
  | hdpush b => exact execHdpush_estate h
  | hdget => exact execHdget_estate h
  | nop | hdclr | pack op val | unpack w => exact respond_keeps_estate h rfl
  | reservedD | reservedE | reservedF => exact refuse_estate h
  | _ => cases hop

end Sys2Proof.Machine

/-! ## What a request reads of its argument, and the one response it gets (30_encoding.md R82 to R86) -/

namespace Sys2Proof.Machine

/-- Settles O4, each line by the decoder's dependence on `opsel` and `arg` alone. -/
theorem argumentFieldsAreTakenAsLaidOut : Obligations.ArgumentFieldsAreTakenAsLaidOut := by
  intro a
  and_intros
  all_goals
    exact Laws.RoundTrip.decode_request _ a _ fun w ho ha => by
      simp [decodeRequest, ho, ha, argByte, argId, argLen, argOp, argVal]

/-- The sixteen operation selects of R84, by the names of their operations. -/
theorem opsel_cases {motive : BitVec 4 → Prop}
    (nop : motive 0x0#4) (csinit : motive 0x1#4) (csadd : motive 0x2#4) (csfin : motive 0x3#4)
    (encstart : motive 0x4#4) (encpay : motive 0x5#4) (encemit : motive 0x6#4) (encabort : motive 0x7#4)
    (hdpush : motive 0x8#4) (hdget : motive 0x9#4) (hdclr : motive 0xA#4) (pack : motive 0xB#4)
    (unpack : motive 0xC#4) (reservedD : motive 0xD#4) (reservedE : motive 0xE#4) (reservedF : motive 0xF#4)
    (o : BitVec 4) : motive o := by
  obtain ⟨n, hn⟩ := o
  interval_cases n <;> assumption

/-! ### Argument bits that are read -/

/-- Two words that agree under a mask agree on every field the mask covers. -/
theorem field_eq_of_masked_eq {w i n : Nat} {a a' m : BitVec w} (h : a &&& m = a' &&& m)
    (hm : m.extractLsb' i n = BitVec.allOnes n) : a.extractLsb' i n = a'.extractLsb' i n :=
  calc a.extractLsb' i n
      _ = (a &&& m).extractLsb' i n := by rw [BitVec.extractLsb'_and, hm, BitVec.and_allOnes]
      _ = a'.extractLsb' i n := by rw [h, BitVec.extractLsb'_and, hm, BitVec.and_allOnes]

/-- The decoder takes nothing of an argument but the bits that R85 names. -/
theorem decode_eq_of_masked_arg_eq {o : BitVec 4} {a a' : Word} (h : a &&& readMask o = a' &&& readMask o) :
    decode (.req (o ++ a)) = decode (.req (o ++ a')) := by
  have layout := argumentFieldsAreTakenAsLaidOut
  unfold Obligations.ArgumentFieldsAreTakenAsLaidOut at layout
  induction o using opsel_cases with
  | csadd | encpay | hdpush =>
    have hb : a.extractLsb' 0 8 = a'.extractLsb' 0 8 := field_eq_of_masked_eq h rfl
    simp only [layout, hb]
  | encstart =>
    have hty : a.extractLsb' 0 8 = a'.extractLsb' 0 8 := field_eq_of_masked_eq h rfl
    have hid : a.extractLsb' 8 8 = a'.extractLsb' 8 8 := field_eq_of_masked_eq h rfl
    have hlen : a.extractLsb' 16 16 = a'.extractLsb' 16 16 := field_eq_of_masked_eq h rfl
    simp only [layout, hty, hid, hlen]
  | pack =>
    have hop : a.extractLsb' 0 6 = a'.extractLsb' 0 6 := field_eq_of_masked_eq h rfl
    have hval : a.extractLsb' 6 22 = a'.extractLsb' 6 22 := field_eq_of_masked_eq h rfl
    simp only [layout, hop, hval]
  | unpack =>
    have hw : a.extractLsb' 0 32 = a'.extractLsb' 0 32 := field_eq_of_masked_eq h rfl
    rw [show a = a' by simpa using hw]
  | nop | csinit | csfin | encemit | encabort | hdget | hdclr | reservedD | reservedE | reservedF =>
    simp only [layout]

/-- Settles O7: the two requests decode to one instruction. -/
theorem unreadArgumentBitsDoNotMatter : Obligations.UnreadArgumentBitsDoNotMatter := by
  intro o a a' s h
  simp only [performTransfer, decode_eq_of_masked_arg_eq h]

/-! ### One response, within the bits its operation names -/

/-- The outcome goes on from `s` with exactly one response more, whose data is 0 when refused and 0 outside the
mask `m` (R83). -/
def AnswersWithin (m : BitVec 48) (s : State) (out : Host.Outcome State Fault Refusal) : Prop :=
  ∃ (t : State) (st : Status) (data : BitVec 48), out = .next t ∧ t.inputs = s.inputs ∧
    t.rsps = s.rsps ++ [mkResponse st data] ∧ (st = .ok ∨ data = 0) ∧ data &&& ~~~m = 0

/-- An operation may write any register before it answers, but neither the inputs nor the responses. -/
theorem respond_answersWithin {m data : BitVec 48} {s u : State} (hin : u.inputs = s.inputs)
    (hrsps : u.rsps = s.rsps) (hdata : data &&& ~~~m = 0) : AnswersWithin m s (respond u data) :=
  ⟨u.answer .ok data, .ok, data, rfl, hin, by rw [answer_rsps, hrsps], .inl rfl, hdata⟩

theorem refuse_answersWithin {m : BitVec 48} {s : State} {st : Status} : AnswersWithin m s (refuse s st) :=
  ⟨s.answer st 0, st, 0, rfl, rfl, rfl, .inr rfl, BitVec.zero_and⟩

theorem requireEState_answersWithin {m : BitVec 48} {s : State} {e : EState}
    {k : Host.Outcome State Fault Refusal} (hk : AnswersWithin m s k) :
    AnswersWithin m s (requireEState s e k) := by
  obtain ⟨-, hgo⟩ | ⟨-, hrefused⟩ := requireEState_cases (Eq.refl (requireEState s e k))
  · rwa [← hgo]
  · rw [hrefused]
    exact refuse_answersWithin

/-- Data that fills the low `n` bits keeps within every mask that covers them. -/
theorem zero_append_within {k n : Nat} (d : BitVec n) {m : BitVec (k + n)}
    (hm : m.extractLsb' 0 n = BitVec.allOnes n) : (0#k ++ d) &&& ~~~m = 0#(k + n) := by
  ext i hi
  by_cases hlow : i < n
  · have hbit : m[i] = true := by simpa [hlow, hi] using congrArg (·.getLsbD i) hm
    simp [hbit]
  · simp [BitVec.getElem_append, hlow]

/-- The two answers of ENCSTART and its two refusals all have data 0. -/
theorem execEncstart_answersWithin (m : BitVec 48) (ty id : Byte) (len : Half) (s : State) :
    AnswersWithin m s (execEncstart ty id len s) := by
  refine requireEState_answersWithin ?_
  split
  · exact refuse_answersWithin
  · exact respond_answersWithin rfl rfl BitVec.zero_and

theorem execHdpush_answersWithin (b : Byte) (s : State) : AnswersWithin (dataMask 0x8) s (execHdpush b s) := by
  unfold execHdpush
  split <;> exact respond_answersWithin rfl rfl (zero_append_within _ rfl)

theorem execHdget_answersWithin (s : State) : AnswersWithin (dataMask 0x9) s (execHdget s) := by
  unfold execHdget
  split
  · exact respond_answersWithin rfl rfl BitVec.and_zero
  · exact refuse_answersWithin

/-- Every request decodes to an operation that answers once, within the data bits that R86 names. -/
theorem request_answersWithin (o : BitVec 4) (a : Word) (s : State) :
    ∃ i, decode (.req (o ++ a)) = .ok i ∧ AnswersWithin (dataMask o) s (exec i s) := by
  obtain ⟨hnop, hcsinit, hcsadd, hcsfin, hencstart, hencpay, hencemit, hencabort, hhdpush, hhdget, hhdclr,
    hpack, hunpack, hreservedD, hreservedE, hreservedF⟩ := argumentFieldsAreTakenAsLaidOut a
  induction o using opsel_cases with
  | nop => exact ⟨_, hnop, respond_answersWithin rfl rfl BitVec.zero_and⟩
  | csinit => exact ⟨_, hcsinit, requireEState_answersWithin (respond_answersWithin rfl rfl BitVec.zero_and)⟩
  | csadd => exact ⟨_, hcsadd, requireEState_answersWithin (respond_answersWithin rfl rfl BitVec.zero_and)⟩
  | csfin =>
    exact ⟨_, hcsfin, requireEState_answersWithin (respond_answersWithin rfl rfl (zero_append_within _ rfl))⟩
  | encstart => exact ⟨_, hencstart, execEncstart_answersWithin ..⟩
  | encpay => exact ⟨_, hencpay, requireEState_answersWithin (respond_answersWithin rfl rfl BitVec.zero_and)⟩
  | encemit =>
    exact ⟨_, hencemit, requireEState_answersWithin (respond_answersWithin rfl rfl (zero_append_within _ rfl))⟩
  | encabort => exact ⟨_, hencabort, respond_answersWithin rfl rfl BitVec.zero_and⟩
  | hdpush => exact ⟨_, hhdpush, execHdpush_answersWithin ..⟩
  | hdget => exact ⟨_, hhdget, execHdget_answersWithin ..⟩
  | hdclr => exact ⟨_, hhdclr, respond_answersWithin rfl rfl BitVec.zero_and⟩
  | pack => exact ⟨_, hpack, respond_answersWithin rfl rfl (zero_append_within _ rfl)⟩
  | unpack => exact ⟨_, hunpack, respond_answersWithin rfl rfl (zero_append_within _ rfl)⟩
  | reservedD => exact ⟨_, hreservedD, refuse_answersWithin⟩
  | reservedE => exact ⟨_, hreservedE, refuse_answersWithin⟩
  | reservedF => exact ⟨_, hreservedF, refuse_answersWithin⟩

/-- Settles O46: the step that takes a request runs an operation, and that answers once. -/
theorem everyRequestGetsOneResponse : Obligations.EveryRequestGetsOneResponse := by
  intro s o a rest hin
  obtain ⟨i, hdecode, t, st, data, hexec, hinputs, hrsps, hrefused, hdata⟩ :=
    request_answersWithin o a { s with inputs := rest }
  have hstatus : statusCode st ≠ 0 → data = 0 := fun hst => hrefused.resolve_left (by rintro rfl; exact hst rfl)
  exact ⟨t, statusCode st, data, (step_transfer hin hdecode).trans hexec, hinputs, hrsps, hstatus, hdata⟩

end Sys2Proof.Machine

/-! ## The operations of the checksum unit (40_checksum.md R101 to R103) -/

namespace Sys2Proof.Machine

/-- All that a checked operation can do, with the response written out (R83): it answers from the state `u` it
has reached, or is refused and changes nothing else (R244). -/
theorem requireEState_respond (s u : State) (e : EState) (d : BitVec 48) :
    (s.estate = e → requireEState s e (respond u d) = .next { u with rsps := u.rsps ++ [0#2 ++ d] }) ∧
    (s.estate ≠ e → requireEState s e (respond u d) = .next { s with rsps := s.rsps ++ [1#2 ++ 0#48] }) :=
  ⟨requireEState_same _, requireEState_other _⟩

/-- The sum over naturals whose carry R102 discards. -/
theorem accAdd_eq_ofNat (a b : Byte) : accAdd a b = BitVec.ofNat 8 ((a.toNat + b.toNat) % 256) := by
  apply BitVec.eq_of_toNat_eq
  simpa using accFrom_toNat a [b]

/-- Settles O15: the accepted state is the old one with `ACC` at its start value. -/
theorem csinitStartsASum : Obligations.CsinitStartsASum := fun s =>
  requireEState_respond s { s with acc := Config.csInit } .idle 0

/-- Settles O16: the byte sum of the accepted state is R102's sum over naturals. -/
theorem csaddAddsModulo256 : Obligations.CsaddAddsModulo256 := by
  intro s b
  rw [← accAdd_eq_ofNat]
  exact requireEState_respond s { s with acc := accAdd s.acc b } .idle 0

/-- Settles O17: the accepted state is the old one, and the data is the final inversion of its `ACC`. -/
theorem csfinReturnsTheInvertedAccumulator : Obligations.CsfinReturnsTheInvertedAccumulator := fun s =>
  requireEState_respond s s .idle (dataByte (accFinal s.acc))

end Sys2Proof.Machine

/-! ## The operations of the frame encoder (41_frame_encoder.md R123 to R126) -/

namespace Sys2Proof.Machine

/-! ### ENCSTART -/

theorem loByte_toNat (n : Half) : (loByte n).toNat = n.toNat % 256 := by
  simp [loByte]

theorem hiByte_toNat (n : Half) : (hiByte n).toNat = n.toNat / 256 := by
  have hlt : n.toNat / 256 < 256 := by omega
  simpa [hiByte, Nat.shiftRight_eq_div_pow] using hlt

/-- The sum of the five header bytes of the checksum span, over naturals as R123 writes it. -/
theorem accOf_headBytes_eq_ofNat (ty id : Byte) (len : Half) :
    accOf (headBytes Config.protoVer ty id len) =
      BitVec.ofNat 8 ((0xFF + 3 + ty.toNat + id.toNat + len.toNat % 256 + len.toNat / 256) % 256) := by
  apply BitVec.eq_of_toNat_eq
  have hspan : ((headBytes Config.protoVer ty id len).map BitVec.toNat).sum =
      3 + (ty.toNat + (id.toNat + (len.toNat % 256 + len.toNat / 256))) := by
    simp [headBytes, Config.protoVer, loByte_toNat, hiByte_toNat]
  have hinit : Config.csInit.toNat = 0xFF := rfl
  rw [accOf, accFrom_toNat, hspan, hinit, BitVec.toNat_ofNat]
  omega

/-- Settles O18: past the state check, the length check refuses or the frame is started, and the sum of R123 is
the accumulator over the header bytes. -/
theorem encstartBeginsAFrame : Obligations.EncstartBeginsAFrame := by
  intro s ty id len
  refine ⟨fun hidle => ?_, requireEState_other _⟩
  rw [← accOf_headBytes_eq_ofNat]
  refine (requireEState_same _ hidle).trans ?_
  split
  case isTrue => rfl
  case isFalse => rfl

/-! ### ENCPAY -/

/-- The choice that ENCPAY makes with its end test is on the equality of R124. -/
theorem ite_payloadComplete {α : Type} (s : State) (x y : α) :
    (if payloadComplete s then x else y) = if s.pcnt.toNat + 1 = s.tLen.toNat then x else y := by
  simp only [payloadComplete, decide_eq_true_eq]

/-- A byte stored inside the buffer is read back. -/
theorem memWrite_read_same {s : State} {a : Nat} (v : Byte) (h : a < Config.pmax) :
    (memWrite s a v).read a = some v := by
  rw [memWrite_inside v h, read_write_same]

/-- Settles O20: the buffer after the step is `memWrite` at `PCNT`, of which the laws of the buffer say each read. -/
theorem encpayStoresAPayloadByte : Obligations.EncpayStoresAPayloadByte := by
  intro s b
  refine ⟨fun hfill hinside => ?_, requireEState_other _⟩
  refine ⟨memWrite s s.pcnt.toNat b, memWrite_read_same b hinside, fun a => memWrite_read_other b, ?_⟩
  rw [← accAdd_eq_ofNat, ← ite_payloadComplete]
  exact requireEState_same _ hfill

/-! ### ENCEMIT -/

/-- The choice that ENCEMIT makes with `last` is on the equality of R125. -/
theorem ite_lastFlag {α : Type} (s : State) (x y : α) :
    (if lastFlag s then x else y) = if s.eidx.toNat = 5 + s.tLen.toNat then x else y := by
  simp only [lastFlag, decide_eq_true_eq]

/-- `last` as the bit `data[8]` of the response. -/
theorem ofBool_lastFlag (s : State) :
    BitVec.ofBool (lastFlag s) = if s.eidx.toNat = 5 + s.tLen.toNat then 1#1 else 0#1 := by
  rw [← ite_lastFlag]
  cases lastFlag s <;> rfl

/-- The frame by its offsets (R125, R55): the six header bytes, then the payload the buffer holds. -/
theorem frameByte_eq {s : State} {k : Nat} {byte : Byte}
    (h : k = 0 ∧ byte = s.acc ^^^ 0xFF ∨ k = 1 ∧ byte = 0x03 ∨ k = 2 ∧ byte = s.tType ∨ k = 3 ∧ byte = s.tId ∨
      k = 4 ∧ byte = s.tLen.extractLsb' 0 8 ∨ k = 5 ∧ byte = s.tLen.extractLsb' 8 8 ∨
      6 ≤ k ∧ s.pbuf.read (k - 6) = some byte) : frameByte s k = byte := by
  obtain ⟨rfl, rfl⟩ | ⟨rfl, rfl⟩ | ⟨rfl, rfl⟩ | ⟨rfl, rfl⟩ | ⟨rfl, rfl⟩ | ⟨rfl, rfl⟩ | ⟨hk, hheld⟩ := h
  pick_goal 7
  · obtain ⟨i, rfl⟩ := Nat.exists_eq_add_of_le' hk
    rw [frameByte_payload]
    exact memRead_held hheld
  all_goals rfl

/-- ENCEMIT in EMIT, whatever the frame byte at `EIDX` is, with the response written out. -/
theorem execEncemit_of_emit {s : State} (hemit : s.estate = .emit) :
    execEncemit s = .next
      { s with
        eidx := s.eidx + 1
        estate := if s.eidx.toNat = 5 + s.tLen.toNat then .idle else .emit
        rsps := s.rsps ++
          [0#2 ++ (0#39 ++ ((if s.eidx.toNat = 5 + s.tLen.toNat then 1#1 else 0#1) ++
            frameByte s s.eidx.toNat))] } := by
  rw [← ofBool_lastFlag, ← ite_lastFlag]
  exact requireEState_same _ hemit

/-- Settles O21: the byte the statement names at offset `EIDX` is the frame byte that ENCEMIT answers with. -/
theorem encemitReturnsTheNextFrameByte : Obligations.EncemitReturnsTheNextFrameByte := by
  intro s byte
  refine ⟨fun hemit hbyte => ?_, requireEState_other _⟩
  rw [← frameByte_eq hbyte]
  exact execEncemit_of_emit hemit

/-! ### ENCABORT -/

/-- Settles O23: ENCABORT has no state check; it answers from the old state with `ESTATE` at IDLE. -/
theorem encabortOnlyFreesTheEncoder : Obligations.EncabortOnlyFreesTheEncoder := fun _ => rfl

end Sys2Proof.Machine

/-! ## The operations of the header parser (42_header_parser.md R154 to R156) -/

namespace Sys2Proof.Machine

/-! ### HDPUSH -/

/-- Settles O24: the line of R154 that runs is chosen by `HCNT` alone, and its new state is the statement's: the
joined halves of `H_LEN` and the `valid` bit are there written out. -/
theorem hdpushTakesTheNextHeaderByte : Obligations.HdpushTakesTheNextHeaderByte := by
  intro s b
  and_intros
  all_goals
    intro hcnt
    simp only [exec, execHdpush, hcnt]
    rfl

/-! ### HDGET -/

/-- With a complete header held, HDGET answers with it. -/
theorem execHdget_of_hvalid {s : State} (h : s.hvalid = true) :
    execHdget s = respond s (dataHeader (heldHeader s)) := if_pos h

/-- With no complete header held, HDGET is refused. -/
theorem execHdget_of_not_hvalid {s : State} (h : s.hvalid = false) :
    execHdget s = refuse s .refusedState := if_neg (Bool.eq_false_iff.mp h)

/-- Settles O25: both answers are given from the old state, and the data is the layout `HDR48` of the held header. -/
theorem hdgetReturnsTheHeldHeader : Obligations.HdgetReturnsTheHeldHeader := fun _ =>
  ⟨execHdget_of_hvalid, execHdget_of_not_hvalid⟩

/-! ### HDCLR -/

/-- Settles O26: HDCLR has no check; it answers from the old state with `HCNT` and `HVALID` cleared. -/
theorem hdclrDropsTheHeader : Obligations.HdclrDropsTheHeader := fun _ => rfl

end Sys2Proof.Machine

/-! ## The command word packer and the host's motion commands (43_command_word.md R171 to R180) -/

namespace Sys2Proof.Machine

/-! ### PACK -/

/-- The fields of a packed word do not overlap, so its value is the sum of R171. -/
theorem packWord_toNat (op : BitVec 6) (val : BitVec 22) :
    (packWord op val).toNat = val.toNat * 1024 + op.toNat * 16 := by
  have hlow : (op ++ (0#1 ++ 0#3)).toNat = op.toNat * 16 := by
    rw [BitVec.zero_append_zero, BitVec.toNat_append, BitVec.toNat_zero, Nat.or_zero, Nat.shiftLeft_eq]
  rw [packWord_eq, encodeWord, BitVec.toNat_append, ← Nat.shiftLeft_add_eq_or_of_lt (BitVec.isLt _), hlow,
    Nat.shiftLeft_eq]

/-- A word alone in the response data has its own value there: 0 above. -/
theorem dataWord_eq_ofNat (w : Word) : dataWord w = BitVec.ofNat 48 w.toNat := by
  rw [BitVec.ofNat_toNat]
  exact (BitVec.setWidth_eq_append (by decide)).symm

/-- Settles O27: PACK has no check and answers from the old state; its data is the value of the packed word. -/
theorem packBuildsTheCommandWord : Obligations.PackBuildsTheCommandWord := by
  intro s op val
  rw [← packWord_toNat, ← dataWord_eq_ofNat]
  rfl

/-! ### UNPACK -/

/-- The shifted and masked fields of R172 are the bit fields of R78, each at its place of R177. -/
theorem dataUnpack_eq_fields (w : Word) :
    dataUnpack w = 0#16 ++ (wordRsv w ++ (wordAct w ++ (wordVal w ++ wordOp w))) := by
  rw [dataUnpack, unpackRsv_eq, unpackAct_eq, unpackVal_eq, unpackOp_eq]

/-- Settles O28: UNPACK has no check and answers from the old state with the four fields. -/
theorem unpackSplitsTheCommandWord : Obligations.UnpackSplitsTheCommandWord := by
  intro s w
  change respond s (dataUnpack w) = _
  rw [dataUnpack_eq_fields]
  rfl

/-! ### The clamp of the host (R179) -/

theorem clampSpeed_below {v : Int} (h : v < 15) : clampSpeed v = 15 := if_pos h

theorem clampSpeed_above {v : Int} (h : 15600 < v) : clampSpeed v = 15600 := by
  have hlow : ¬ v < 15 := by omega
  exact (if_neg hlow).trans (if_pos h)

theorem clampSpeed_inside {v : Int} (hlow : 15 ≤ v) (hhigh : v ≤ 15600) : clampSpeed v = v.toNat :=
  (if_neg (Int.not_lt.mpr hlow)).trans (if_neg (Int.not_lt.mpr hhigh))

/-- A clamped speed is at most the upper bound, on each of the three lines of R179. -/
theorem clampSpeed_le (v : Int) : clampSpeed v ≤ 15600 := by
  by_cases hlow : v < 15
  · rw [clampSpeed_below hlow]
    decide
  by_cases hhigh : 15600 < v
  · rw [clampSpeed_above hhigh]
  · rw [clampSpeed_inside (by omega) (by omega)]
    omega

/-- Settles O59: one line of R179 for each part of the range, and the source's examples on each of them. -/
theorem speedIsClampedByTheHost : Obligations.SpeedIsClampedByTheHost := by
  refine ⟨fun v => ⟨clampSpeed_below, clampSpeed_above, fun hlow hhigh => ?_⟩, ?_, ?_, ?_⟩
  · rw [clampSpeed_inside hlow hhigh]
    omega
  · exact clampSpeed_below (by decide)
  · exact clampSpeed_above (by decide)
  · exact clampSpeed_inside (by decide) (by decide)

/-! ### The direction table of the host (R180) -/

/-- The word of a command whose operand fits its field, by the sum of R171. -/
theorem command_word_eq_ofNat (op : BitVec 6) {n : Nat} (h : n < 2 ^ 22) :
    (⟨op, BitVec.ofNat 22 n⟩ : Command).word = BitVec.ofNat 32 (n * 1024 + op.toNat * 16) := by
  have hval : (BitVec.ofNat 22 n).toNat = n := by
    rw [BitVec.toNat_ofNat, Nat.mod_eq_of_lt h]
  apply BitVec.eq_of_toNat_eq
  have hop := op.isLt
  rw [Command.word, packWord_toNat, hval, BitVec.toNat_ofNat, Nat.mod_eq_of_lt (by omega)]

/-- Both bounds of the clamp fit the operand field (R179), so a motion command carries the clamped speed itself. -/
theorem motion_word (op : BitVec 6) (v : Int) :
    (motion op v).word = BitVec.ofNat 32 (clampSpeed v * 1024 + op.toNat * 16) :=
  command_word_eq_ofNat op ((clampSpeed_le v).trans_lt (by decide))

/-- Settles O60, by the rows of R180: two of motion commands, two of the stop command, one with nothing sent. -/
theorem directionTableOfTheHost : Obligations.DirectionTableOfTheHost := by
  intro v w words
  have hmotion (op : BitVec 6) : (motion op v).word = w op (clampSpeed v) := motion_word op v
  have hstop : (stopCommands.1.word, stopCommands.2.word) = (w 0x22 0, w 0x22 0) := by
    have h : (⟨Config.opStop, 0⟩ : Command).word = w 0x22 0 := command_word_eq_ofNat 0x22 (by decide)
    exact congrArg₂ Prod.mk h h
  refine ⟨?forward, ?backward, ?stop, hstop, rfl⟩
  case forward => exact congrArg some (congrArg₂ Prod.mk (hmotion 0x0E) (hmotion 0x0F))
  case backward => exact congrArg some (congrArg₂ Prod.mk (hmotion 0x0F) (hmotion 0x0E))
  case stop => exact congrArg some hstop

end Sys2Proof.Machine

/-! ## NOP and the reserved operation selects (44_control.md R200, R201) -/

namespace Sys2Proof.Machine

/-- An answer with status OK and its data, the response written out (R83). -/
theorem respond_eq_next (s : State) (d : BitVec 48) :
    respond s d = .next { s with rsps := s.rsps ++ [0#2 ++ d] } := rfl

/-- A refusal with status 3 and data 0, the response written out (R83, R244). -/
theorem refuse_illegalOp_eq_next (s : State) :
    refuse s .illegalOp = .next { s with rsps := s.rsps ++ [3#2 ++ 0#48] } := rfl

/-- The three reserved selects behave identically: each is refused before any state check (R201, R243). -/
theorem exec_reserved {i : Instr} (h : i = .reservedD ∨ i = .reservedE ∨ i = .reservedF) (s : State) :
    exec i s = refuse s .illegalOp := by
  obtain rfl | rfl | rfl := h <;> rfl

/-- Settles O13: NOP has no check; it answers from the old state with data 0. -/
theorem nopAnswersOkAndChangesNothing : Obligations.NopAnswersOkAndChangesNothing := fun s =>
  respond_eq_next s 0

/-- Settles O14: the three selects share one refusal, and that is ILLEGAL_OP's response on the old state. -/
theorem reservedSelectsAnswerIllegalOp : Obligations.ReservedSelectsAnswerIllegalOp := fun s _ h =>
  (exec_reserved h s).trans (refuse_illegalOp_eq_next s)

end Sys2Proof.Machine

/-! ## Refusals: which operation, when, and with what effect (60_exceptions.md R241 to R244) -/

namespace Sys2Proof.Machine

/-! ### Performed or refused -/

/-- How an operation can answer from `s`: it is performed, with status OK and whatever registers and data it gives,
or it is refused with a status and data 0 from `s` itself. -/
inductive AnswersWithStatus (s : State) : Status → Host.Outcome State Fault Refusal → Prop where
  | performed {u : State} {d : BitVec 48} (hrsps : u.rsps = s.rsps) : AnswersWithStatus s .ok (respond u d)
  | refused (st : Status) : AnswersWithStatus s st (refuse s st)

/-- The one response either answer gives; a refusal gives nothing more. -/
theorem AnswersWithStatus.response {s t : State} {st : Status} {o : Host.Outcome State Fault Refusal}
    (ho : AnswersWithStatus s st o) (h : o = .next t) :
    ∃ d, t.rsps = s.rsps ++ [mkResponse st d] ∧ (st = .ok ∨ d = 0 ∧ t = s.answer st 0) := by
  cases ho with
  | performed hrsps =>
    obtain rfl := respond_next h
    exact ⟨_, by rw [answer_rsps, hrsps], .inl rfl⟩
  | refused =>
    obtain rfl := refuse_next h
    exact ⟨0, answer_rsps .., .inr ⟨rfl, rfl⟩⟩

/-! ### The statuses of the operations -/

/-- The status of an operation that is checked for the state `e` and goes on to answer with `st`. -/
def checkedStatus (s : State) (e : EState) (st : Status) : Status := if s.estate = e then st else .refusedState

/-- The status of each operation, by the state that performs it; R241 gives the states that refuse it. The last line
is for the six operations that are never refused; of an instruction that is no operation it says nothing. -/
def operationStatus (s : State) : Instr → Status
  | .reservedD | .reservedE | .reservedF => .illegalOp
  | .csinit | .csadd _ | .csfin => checkedStatus s .idle .ok
  | .encstart _ _ len => checkedStatus s .idle (if Config.pmax < len.toNat then .refusedLen else .ok)
  | .encpay _ => checkedStatus s .fill .ok
  | .encemit => checkedStatus s .emit .ok
  | .hdget => if s.hvalid then .ok else .refusedState
  | _ => .ok

theorem requireEState_answersWithStatus {s : State} {e : EState} {st : Status}
    {k : Host.Outcome State Fault Refusal} (hk : AnswersWithStatus s st k) :
    AnswersWithStatus s (checkedStatus s e st) (requireEState s e k) := by
  unfold checkedStatus
  split
  case isTrue he => rwa [requireEState_same k he]
  case isFalse he =>
    rw [requireEState_other k he]
    exact .refused .refusedState

/-- Past the state check comes the length check (R243). -/
theorem execEncstart_answersWithStatus (ty id : Byte) (len : Half) (s : State) :
    AnswersWithStatus s (checkedStatus s .idle (if Config.pmax < len.toNat then .refusedLen else .ok))
      (execEncstart ty id len s) := by
  refine requireEState_answersWithStatus ?_
  split
  · exact .refused _
  · exact .performed rfl

/-- HDPUSH is performed at every value of `HCNT`. -/
theorem execHdpush_answersWithStatus (b : Byte) (s : State) : AnswersWithStatus s .ok (execHdpush b s) := by
  unfold execHdpush
  split <;> exact .performed rfl

theorem execHdget_answersWithStatus (s : State) :
    AnswersWithStatus s (if s.hvalid then .ok else .refusedState) (execHdget s) := by
  unfold execHdget
  split
  · exact .performed rfl
  · exact .refused _

/-- Every operation is performed or refused, and its status tells which. -/
theorem exec_answersWithStatus {i : Instr} (hop : isOperation i = true) (s : State) :
    AnswersWithStatus s (operationStatus s i) (exec i s) := by
  cases i with
  | reservedD | reservedE | reservedF => exact .refused _
  | csinit | csadd b | csfin | encpay b | encemit => exact requireEState_answersWithStatus (.performed rfl)
  | encstart ty id len => exact execEncstart_answersWithStatus ..
  | hdpush b => exact execHdpush_answersWithStatus ..
  | hdget => exact execHdget_answersWithStatus s
  | nop | encabort | hdclr | pack op val | unpack w => exact .performed rfl
  | _ => cases hop

/-- Settles O47: the one response carries the operation's status, and only OK comes with another change. -/
theorem refusedRequestChangesNoState : Obligations.RefusedRequestChangesNoState := by
  intro s t i hop h
  obtain ⟨d, hrsps, hok | ⟨rfl, hrefused⟩⟩ := (exec_answersWithStatus hop s).response h
  · refine ⟨_, hrsps, fun hst => absurd ?_ hst⟩
    rw [rspStatus_mkResponse, hok]
    rfl
  · exact ⟨_, hrsps, fun _ => ⟨rspData_mkResponse .., hrefused⟩⟩

/-! ### The refusal table -/

/-- The latest response after an operation is its own. -/
theorem exec_lastStatus {s t : State} {i : Instr} (hop : isOperation i = true) (h : exec i s = .next t) :
    lastStatus t = some (statusCode (operationStatus s i)) := by
  obtain ⟨d, hrsps, -⟩ := (exec_answersWithStatus hop s).response h
  simp [lastStatus, hrsps]

/-- A line of R241 names the states `p` that the operation's state check refuses. -/
theorem statusCode_checkedStatus {s : State} {e : EState} {p : Prop} [Decidable p] (st : Status)
    (hp : p ↔ s.estate ≠ e) : statusCode (checkedStatus s e st) = if p then 1 else statusCode st := by
  by_cases he : s.estate = e
  · rw [checkedStatus, if_pos he, if_neg (fun h => hp.mp h he)]
  · rw [checkedStatus, if_neg he, if_pos (hp.mpr he)]
    rfl

/-! The encoder has three states (R24), so two of them are all but the third. -/

theorem fill_or_emit_iff_ne_idle (e : EState) : e = .fill ∨ e = .emit ↔ e ≠ .idle := by
  cases e <;> decide

theorem idle_or_emit_iff_ne_fill (e : EState) : e = .idle ∨ e = .emit ↔ e ≠ .fill := by
  cases e <;> decide

theorem idle_or_fill_iff_ne_emit (e : EState) : e = .idle ∨ e = .fill ↔ e ≠ .emit := by
  cases e <;> decide

/-- Settles O48, by the lines of R241: each has the status of the operation, the states that refuse it in place of
the one that performs it. -/
theorem refusalTableIsComplete : Obligations.RefusalTableIsComplete := by
  intro s t i hop h
  rw [exec_lastStatus hop h]
  refine congrArg some ?_
  cases i with
  | reservedD | reservedE | reservedF => rfl
  | csinit | csadd b | csfin => exact statusCode_checkedStatus .ok (fill_or_emit_iff_ne_idle _)
  | encstart ty id len =>
    refine (statusCode_checkedStatus _ (fill_or_emit_iff_ne_idle _)).trans ?_
    rw [apply_ite statusCode]
    rfl
  | encpay b => exact statusCode_checkedStatus .ok (idle_or_emit_iff_ne_fill _)
  | encemit => exact statusCode_checkedStatus .ok (idle_or_fill_iff_ne_emit _)
  | hdget =>
    change statusCode (if s.hvalid then .ok else .refusedState) = if s.hvalid = false then 1 else 0
    cases s.hvalid <;> rfl
  | nop | encabort | hdpush b | hdclr | pack op val | unpack w => rfl
  | _ => cases hop

end Sys2Proof.Machine

/-! ## The reset event (70_reset_and_hazards.md R270 to R272) -/

namespace Sys2Proof.Machine

/-- The step that takes the reset event answers exactly its state; it is never refused (R271). -/
theorem step_reset {s : State} {rest : List Input} (hin : s.inputs = .reset :: rest) :
    step s = .next ({ s with inputs := rest } : State).resetEvent := by
  simp [step, hin]

/-- The reset event leaves a reset state, whatever the state before it: no element of R270's table that has a
value depends on what it held. -/
theorem resetEvent_isReset (s : State) : IsReset s.resetEvent where
  acc := resetEvent_acc s
  estate := resetEvent_estate s
  pcnt := resetEvent_pcnt s
  eidx := resetEvent_eidx s
  hcnt := resetEvent_hcnt s
  hvalid := resetEvent_hvalid s

/-- Settles O11: the next state is that of the reset event, which is a reset state and keeps the responses. -/
theorem resetEventPutsTheResetValues : Obligations.ResetEventPutsTheResetValues := by
  intro s rest hin
  obtain ⟨hacc, hestate, hpcnt, heidx, hhcnt, hhvalid⟩ := resetEvent_isReset { s with inputs := rest }
  exact ⟨_, step_reset hin, hacc, hestate, hpcnt, heidx, hhcnt, hhvalid, resetEvent_rsps _⟩

end Sys2Proof.Machine

/-! ## The decoder and the encoder on every transfer (30_encoding.md R70 to R92) -/

namespace Sys2Proof.Machine

/-! ### From the instruction to its transfer and back -/

/-- Settles O2, by the instruction: each row has its round trip. -/
theorem decodeOfEncodeIsTheInstruction : Obligations.DecodeOfEncodeIsTheInstruction := by
  intro i
  cases i with
  | nop => exact Laws.RoundTrip.nop
  | csinit => exact Laws.RoundTrip.csinit
  | csadd b => exact Laws.RoundTrip.csadd b
  | csfin => exact Laws.RoundTrip.csfin
  | encstart ty id len => exact Laws.RoundTrip.encstart ty id len
  | encpay b => exact Laws.RoundTrip.encpay b
  | encemit => exact Laws.RoundTrip.encemit
  | encabort => exact Laws.RoundTrip.encabort
  | hdpush b => exact Laws.RoundTrip.hdpush b
  | hdget => exact Laws.RoundTrip.hdget
  | hdclr => exact Laws.RoundTrip.hdclr
  | pack op val => exact Laws.RoundTrip.pack op val
  | unpack w => exact Laws.RoundTrip.unpack w
  | reservedD => exact Laws.RoundTrip.reservedD
  | reservedE => exact Laws.RoundTrip.reservedE
  | reservedF => exact Laws.RoundTrip.reservedF
  | frame dir ck ver ty id len => exact Laws.RoundTrip.frame dir ck ver ty id len
  | unlock ck id => exact Laws.RoundTrip.unlock ck id
  | loginReply ck id => exact Laws.RoundTrip.loginReply ck id
  | moveStatusCmd ck id => exact Laws.RoundTrip.moveStatusCmd ck id
  | statusReply ck id => exact Laws.RoundTrip.statusReply ck id
  | greeting ck ver ty id => exact Laws.RoundTrip.greeting ck ver ty id
  | cw op val => exact Laws.RoundTrip.cw op val
  | rotE val => exact Laws.RoundTrip.rotE val
  | rotF val => exact Laws.RoundTrip.rotF val
  | stop => exact Laws.RoundTrip.stop

/-! ### From the transfer to its instruction and back -/

/-- The named rows fix some of the header's fields; with them put back the header is its fields. -/
theorem encode_of_decodeHeader {dir : Direction} {w : Header48} {i : Instr} (h : decodeHeader dir w = .ok i) :
    i.WellFormed = true ∧ encode i = .hdr dir w := by
  have hw := encodeHeader_fields w
  unfold decodeHeader at h
  cases dir with
  | toDevice =>
    simp only [ne_eq, ite_not] at h
    split at h
    case isFalse => cases h
    case isTrue hver =>
    rw [hver] at hw
    split at h
    case isTrue hunlock =>
      cases h
      rw [hunlock.1, hunlock.2] at hw
      exact ⟨rfl, congrArg _ hw⟩
    case isFalse hunlock =>
    split at h
    case isTrue hmove =>
      cases h
      rw [hmove.1, hmove.2] at hw
      exact ⟨rfl, congrArg _ hw⟩
    case isFalse hmove =>
      cases h
      exact ⟨decide_eq_true ⟨hver, hunlock, hmove⟩, congrArg _ (hver ▸ hw)⟩
  | toHost =>
    dsimp only at h
    split at h
    case isTrue hlen =>
      cases h
      rw [hlen] at hw
      exact ⟨rfl, congrArg _ hw⟩
    case isFalse hlen =>
    split at h
    case isTrue hlogin =>
      cases h
      rw [hlogin.1, hlogin.2.1, hlogin.2.2] at hw
      exact ⟨rfl, congrArg _ hw⟩
    case isFalse hlogin =>
    split at h
    case isTrue hstatus =>
      cases h
      rw [hstatus.1, hstatus.2.1, hstatus.2.2] at hw
      exact ⟨rfl, congrArg _ hw⟩
    case isFalse hstatus =>
      cases h
      exact ⟨decide_eq_true ⟨hlen, hlogin, hstatus⟩, congrArg _ hw⟩

/-- A word whose reserved and action bits are 0 is its opcode and operand. -/
theorem encodeWord_fields {w : Word} (hrsv : wordRsv w = 0) (hact : wordAct w = 0) :
    encodeWord (wordOp w) (wordVal w) = w := by
  have hw := word_fields w
  rwa [hrsv, hact] at hw

theorem encode_of_decodeWord {w : Word} {i : Instr} (h : decodeWord w = .ok i) :
    i.WellFormed = true ∧ encode i = .cw w := by
  unfold decodeWord at h
  dsimp only at h
  split at h
  case isTrue => cases h
  case isFalse hlow =>
  obtain ⟨hrsv, hact⟩ : wordRsv w = 0 ∧ wordAct w = 0 := by simpa using hlow
  have hw := encodeWord_fields hrsv hact
  split at h
  case isTrue hrotE =>
    cases h
    rw [hrotE] at hw
    exact ⟨rfl, congrArg _ hw⟩
  case isFalse hrotE =>
  split at h
  case isTrue hrotF =>
    cases h
    rw [hrotF] at hw
    exact ⟨rfl, congrArg _ hw⟩
  case isFalse hrotF =>
  split at h
  case isTrue hstop =>
    cases h
    rw [hstop.1, hstop.2] at hw
    exact ⟨rfl, congrArg _ hw⟩
  case isFalse hstop =>
    cases h
    exact ⟨decide_eq_true ⟨hrotE, hrotF, hstop⟩, congrArg _ hw⟩

/-- Under a mask of the low `n` bits only these stay, and 0 stands above them. -/
theorem and_lowMask (k n : Nat) {a m : BitVec (k + n)} (hm : m.toNat = 2 ^ n - 1) :
    a &&& m = 0#k ++ a.extractLsb' 0 n := by
  apply BitVec.eq_of_toNat_eq
  rw [BitVec.toNat_and, hm, Nat.and_two_pow_sub_one_eq_mod]
  simp

/-! The argument a request is written with is the argument read, masked by R85: as an assembled word it keeps the
named fields and has 0 elsewhere. -/

theorem byteArg_argByte (a : Word) : byteArg (argByte a) = a &&& 0xFF := (and_lowMask 24 8 rfl).symm

theorem startArg_fields (a : Word) : startArg (argByte a) (argId a) (argLen a) = a := by
  unfold startArg argByte argId argLen
  ext i h
  grind

theorem packArg_fields (a : Word) : packArg (argOp a) (argVal a) = a &&& 0x0FFFFFFF := by
  have hfields : argVal a ++ argOp a = a.extractLsb' 0 28 := by
    unfold argVal argOp
    ext i h
    grind
  rw [packArg, hfields]
  exact (and_lowMask 4 28 rfl).symm

/-- A request whose instruction is written with its own `opsel` and the masked argument is written back. -/
theorem encode_request_of_arg {o : BitVec 4} {a x : Word} {i j : Instr} (hj : decode (.req (o ++ a)) = .ok j)
    (hwf : j.WellFormed = true) (henc : encode j = .req (encodeRequest o x)) (hx : x = a &&& readMask o)
    (h : decode (.req (o ++ a)) = .ok i) :
    i.WellFormed = true ∧ encode i = .req (o ++ (a &&& readMask o)) := by
  obtain rfl : j = i := Except.ok.inj (hj.symm.trans h)
  exact ⟨hwf, henc.trans (by rw [hx, encodeRequest])⟩

/-- A request is written back with the bits that its operation reads (R85), and 0 for the others (R92). -/
theorem encode_of_decodeRequest {o : BitVec 4} {a : Word} {i : Instr} (h : decode (.req (o ++ a)) = .ok i) :
    i.WellFormed = true ∧ encode i = .req (o ++ (a &&& readMask o)) := by
  obtain ⟨hnop, hcsinit, hcsadd, hcsfin, hencstart, hencpay, hencemit, hencabort, hhdpush, hhdget, hhdclr,
    hpack, hunpack, hreservedD, hreservedE, hreservedF⟩ := argumentFieldsAreTakenAsLaidOut a
  induction o using opsel_cases with
  | nop => exact encode_request_of_arg hnop rfl rfl BitVec.and_zero.symm h
  | csinit => exact encode_request_of_arg hcsinit rfl rfl BitVec.and_zero.symm h
  | csadd => exact encode_request_of_arg hcsadd rfl rfl (byteArg_argByte a) h
  | csfin => exact encode_request_of_arg hcsfin rfl rfl BitVec.and_zero.symm h
  | encstart =>
    exact encode_request_of_arg hencstart rfl rfl ((startArg_fields a).trans BitVec.and_allOnes.symm) h
  | encpay => exact encode_request_of_arg hencpay rfl rfl (byteArg_argByte a) h
  | encemit => exact encode_request_of_arg hencemit rfl rfl BitVec.and_zero.symm h
  | encabort => exact encode_request_of_arg hencabort rfl rfl BitVec.and_zero.symm h
  | hdpush => exact encode_request_of_arg hhdpush rfl rfl (byteArg_argByte a) h
  | hdget => exact encode_request_of_arg hhdget rfl rfl BitVec.and_zero.symm h
  | hdclr => exact encode_request_of_arg hhdclr rfl rfl BitVec.and_zero.symm h
  | pack => exact encode_request_of_arg hpack rfl rfl (packArg_fields a) h
  | unpack => exact encode_request_of_arg hunpack rfl rfl BitVec.and_allOnes.symm h
  | reservedD => exact encode_request_of_arg hreservedD rfl rfl BitVec.and_zero.symm h
  | reservedE => exact encode_request_of_arg hreservedE rfl rfl BitVec.and_zero.symm h
  | reservedF => exact encode_request_of_arg hreservedF rfl rfl BitVec.and_zero.symm h

/-! ### What the decoder rejects (log entry 17) -/

theorem decodeHeader_toDevice_rejects {w : Header48} (h : hdrVer w ≠ Config.protoVer) :
    decodeHeader .toDevice w = .error .undescribedHeader := if_pos h

theorem decodeHeader_toDevice_accepts {w : Header48} (h : hdrVer w = Config.protoVer) :
    ∃ i, decodeHeader .toDevice w = .ok i := by
  unfold decodeHeader
  simp only [h, ne_eq, not_true_eq_false, if_false]
  split_ifs <;> exact ⟨_, rfl⟩

/-- A header to the host is parsed, whatever its fields are. -/
theorem decodeHeader_toHost_accepts (w : Header48) : ∃ i, decodeHeader .toHost w = .ok i := by
  unfold decodeHeader
  dsimp only
  split_ifs <;> exact ⟨_, rfl⟩

/-- The low four bits of a command word are its action and reserved bits. -/
theorem low_bits_eq_zero_iff (w : Word) : w &&& 0xF = 0 ↔ wordRsv w = 0 ∧ wordAct w = 0 := by
  constructor
  · intro h
    exact ⟨field_eq_of_masked_eq (a' := 0) h rfl, field_eq_of_masked_eq (a' := 0) h rfl⟩
  · rintro ⟨hrsv, hact⟩
    have hlow : w.extractLsb' 0 4 = wordAct w ++ wordRsv w := by
      unfold wordAct wordRsv
      ext i h
      grind
    rw [and_lowMask 28 4 (a := w) (m := 0xF) rfl, hlow, hrsv, hact]
    rfl

theorem decodeWord_rejects {w : Word} (h : w &&& 0xF ≠ 0) : decodeWord w = .error .undescribedWord := by
  rw [ne_eq, low_bits_eq_zero_iff, not_and_or] at h
  exact if_pos h

theorem decodeWord_accepts {w : Word} (h : w &&& 0xF = 0) : ∃ i, decodeWord w = .ok i := by
  obtain ⟨hrsv, hact⟩ := (low_bits_eq_zero_iff w).mp h
  unfold decodeWord
  simp only [hrsv, hact, ne_eq, not_true_eq_false, or_self, if_false]
  split_ifs <;> exact ⟨_, rfl⟩

/-- A header is rejected under its own name, and only one to the device of another version. -/
theorem decodeHeader_eq_error_iff {dir : Direction} {w : Header48} {r : DecodeReject} :
    decodeHeader dir w = .error r ↔
      r = .undescribedHeader ∧ dir = .toDevice ∧ hdrVer w ≠ Config.protoVer := by
  cases dir with
  | toDevice =>
    by_cases hver : hdrVer w = Config.protoVer
    · obtain ⟨i, hi⟩ := decodeHeader_toDevice_accepts hver
      simp [hi, hver]
    · simp [decodeHeader_toDevice_rejects hver, hver, eq_comm]
  | toHost =>
    obtain ⟨i, hi⟩ := decodeHeader_toHost_accepts w
    simp [hi]

/-- A command word is rejected under its own name, and only with one of its low four bits set. -/
theorem decodeWord_eq_error_iff {w : Word} {r : DecodeReject} :
    decodeWord w = .error r ↔ r = .undescribedWord ∧ w &&& 0xF ≠ 0 := by
  by_cases hlow : w &&& 0xF = 0
  · obtain ⟨i, hi⟩ := decodeWord_accepts hlow
    simp only [hi, hlow, ne_eq, reduceCtorEq, not_true_eq_false, and_false]
  · rw [decodeWord_rejects hlow, Except.error.injEq, eq_comm, and_iff_left hlow]

/-- A transfer that the decoder rejects stops the step by that name. -/
theorem step_rejected {s : State} {x : Transfer} {rest : List Input} {r : DecodeReject}
    (hin : s.inputs = .transfer x :: rest) (hd : decode x = .error r) : step s = .refused (rejected r) := by
  simp [step, hin, performTransfer, hd]

/-- Settles O3: each of the three formats is written back by its own lemma. -/
theorem encodeOfDecodeIsTheTransfer : Obligations.EncodeOfDecodeIsTheTransfer := fun _ =>
  ⟨fun _ _ => encode_of_decodeHeader, fun _ => encode_of_decodeWord, fun _ _ => encode_of_decodeRequest⟩

/-- Settles O8: the two formats that can be rejected, each under its name, and the step on them. -/
theorem undescribedTransfersAreRefused : Obligations.UndescribedTransfersAreRefused := by
  refine ⟨fun dir w => ?_, fun w => ?_, fun w => ⟨_, rfl⟩, fun dir w r h => ?_, fun w r h => ?_,
    fun s x rest hin => ⟨step_rejected hin, step_rejected hin⟩⟩
  · exact decodeHeader_eq_error_iff.trans (and_iff_right rfl)
  · exact decodeWord_eq_error_iff.trans (and_iff_right rfl)
  · exact (decodeHeader_eq_error_iff.mp h).1
  · exact (decodeWord_eq_error_iff.mp h).1

/-! ### The decoder's tables -/

/-- Settles O1, word by word. -/
theorem sampleWordsDecode : Obligations.SampleWordsDecode := by
  unfold Obligations.SampleWordsDecode
  decide

/-- Settles O5: the classification of R90 is the decoder's own, with the version put in where it is known to be 3. -/
theorem headersAreClassifiedByTheirFields : Obligations.HeadersAreClassifiedByTheirFields := by
  intro w ck ver ty id len
  refine ⟨?_, rfl⟩
  refine ite_congr rfl (fun _ => rfl) fun hver => ?_
  rw [← not_not.mp hver]
  rfl

/-- Settles O6: the fields of R78 and the names of R87 are the decoder's own. -/
theorem commandWordsAreTakenAsLaidOut : Obligations.CommandWordsAreTakenAsLaidOut := fun _ => rfl

end Sys2Proof.Machine

/-! ## What an instruction can write, and the invariant (10_state.md R21, R33) -/

namespace Sys2Proof.Machine

/-! ### The registers after an accepted operation -/

/-- The registers after an accepted ENCPAY (R124). -/
def acceptPayloadByte (b : Byte) (s : State) : State :=
  { s with
    pbuf := memWrite s s.pcnt.toNat b
    acc := accAdd s.acc b
    pcnt := s.pcnt + 1
    estate := if payloadComplete s then .emit else .fill }

/-- The registers after an accepted ENCEMIT (R125). -/
def passFrameByte (s : State) : State :=
  { s with eidx := s.eidx + 1, estate := if lastFlag s then .idle else .emit }

/-- The registers after HDPUSH (R154), register by register: the byte goes to the one that `HCNT` selects, and the
sixth byte takes `HCNT` round to 0. -/
def takeHeaderByte (b : Byte) (s : State) : State :=
  { s with
    hCk := if s.hcnt = 0 then b else s.hCk
    hVer := if s.hcnt = 1 then b else s.hVer
    hType := if s.hcnt = 2 then b else s.hType
    hId := if s.hcnt = 3 then b else s.hId
    hLen := if s.hcnt = 4 then joinLen b (hiByte s.hLen)
      else if s.hcnt = 5 then joinLen (loByte s.hLen) b else s.hLen
    hvalid := if s.hcnt = 0 then false else if s.hcnt = 5 then true else s.hvalid
    hcnt := s.hcnt + 1 }

/-- The six values of `HCNT` (R29). -/
theorem hcnt_cases (k : Fin 6) : k = 0 ∨ k = 1 ∨ k = 2 ∨ k = 3 ∨ k = 4 ∨ k = 5 := by
  revert k
  decide

/-- HDPUSH answers `valid` with the sixth byte. -/
theorem execHdpush_eq (b : Byte) (s : State) :
    execHdpush b s = respond (takeHeaderByte b s) (dataValid (decide (s.hcnt = 5))) := by
  obtain h | h | h | h | h | h := hcnt_cases s.hcnt <;> simp [execHdpush, takeHeaderByte, h]

/-! ### Every write, by its instruction -/

/-- The registers `u` that an instruction can leave from `s`, the host's two lists aside. A refused operation and
one that only answers keep them all, and so does a header or a command word. -/
inductive Writes (s : State) : Instr → State → Prop where
  | keep (i : Instr) : Writes s i s
  | csinit (hidle : s.estate = .idle) : Writes s .csinit { s with acc := Config.csInit }
  | csadd (b : Byte) (hidle : s.estate = .idle) : Writes s (.csadd b) { s with acc := accAdd s.acc b }
  | encstart (ty id : Byte) (len : Half) (hidle : s.estate = .idle) (hfits : len.toNat ≤ Config.pmax) :
      Writes s (.encstart ty id len) (startFrame ty id len s)
  | encpay (b : Byte) (hfill : s.estate = .fill) : Writes s (.encpay b) (acceptPayloadByte b s)
  | encemit (hemit : s.estate = .emit) : Writes s .encemit (passFrameByte s)
  | encabort : Writes s .encabort { s with estate := .idle }
  | hdpush (b : Byte) : Writes s (.hdpush b) (takeHeaderByte b s)
  | hdclr : Writes s .hdclr { s with hcnt := 0, hvalid := false }

/-- The outcome leaves the registers of a write of `i`, and any two lists of the host. -/
def LeavesWrite (s : State) (i : Instr) (o : Host.Outcome State Fault Refusal) : Prop :=
  ∃ u ins rs, Writes s i u ∧ o = .next { u with inputs := ins, rsps := rs }

theorem respond_leavesWrite {s u : State} {i : Instr} (hu : Writes s i u) (d : BitVec 48) :
    LeavesWrite s i (respond u d) := ⟨u, _, _, hu, rfl⟩

theorem refuse_leavesWrite (s : State) (i : Instr) (st : Status) : LeavesWrite s i (refuse s st) :=
  ⟨s, _, _, .keep i, rfl⟩

theorem present_leavesWrite (s : State) (i : Instr) (is : List Instr) : LeavesWrite s i (.next (s.present is)) :=
  ⟨s, _, _, .keep i, rfl⟩

theorem requireEState_leavesWrite {s : State} {i : Instr} {e : EState} {k : Host.Outcome State Fault Refusal}
    (hk : s.estate = e → LeavesWrite s i k) : LeavesWrite s i (requireEState s e k) := by
  by_cases he : s.estate = e
  · rw [requireEState_same k he]
    exact hk he
  · rw [requireEState_other k he]
    exact refuse_leavesWrite s i .refusedState

theorem execEncstart_leavesWrite (ty id : Byte) (len : Half) (s : State) :
    LeavesWrite s (.encstart ty id len) (execEncstart ty id len s) := by
  refine requireEState_leavesWrite fun hidle => ?_
  split
  case isTrue => exact refuse_leavesWrite ..
  case isFalse hfits => exact respond_leavesWrite (.encstart ty id len hidle (Nat.not_lt.mp hfits)) 0

theorem execHdget_leavesWrite (s : State) : LeavesWrite s .hdget (execHdget s) := by
  unfold execHdget
  split
  · exact respond_leavesWrite (.keep _) _
  · exact refuse_leavesWrite ..

theorem execFrame_leavesWrite (dir : Direction) (ck ver ty id : Byte) (len : Half) (s : State) :
    LeavesWrite s (.frame dir ck ver ty id len) (execFrame dir ck ver ty id len s) := by
  cases dir <;> exact present_leavesWrite ..

/-- Every instruction goes on from every state, and this is all it can write. -/
theorem exec_leavesWrite (i : Instr) (s : State) : LeavesWrite s i (exec i s) := by
  cases i with
  | csinit => exact requireEState_leavesWrite fun h => respond_leavesWrite (.csinit h) _
  | csadd b => exact requireEState_leavesWrite fun h => respond_leavesWrite (.csadd b h) _
  | csfin => exact requireEState_leavesWrite fun _ => respond_leavesWrite (.keep _) _
  | encstart ty id len => exact execEncstart_leavesWrite ..
  | encpay b => exact requireEState_leavesWrite fun h => respond_leavesWrite (.encpay b h) _
  | encemit => exact requireEState_leavesWrite fun h => respond_leavesWrite (.encemit h) _
  | encabort => exact respond_leavesWrite .encabort _
  | hdpush b => 
    rw [exec, execHdpush_eq]
    exact respond_leavesWrite (.hdpush b) _
  | hdget => exact execHdget_leavesWrite s
  | hdclr => exact respond_leavesWrite .hdclr _
  | nop | pack op val | unpack w => exact respond_leavesWrite (.keep _) _
  | reservedD | reservedE | reservedF => exact refuse_leavesWrite ..
  | frame dir ck ver ty id len => exact execFrame_leavesWrite ..
  | greeting ck ver ty id => exact ⟨s, _, _, .keep _, rfl⟩
  | unlock | loginReply | moveStatusCmd | statusReply | cw | rotE | rotF | stop => exact present_leavesWrite ..

/-- An instruction that went on has done one of its writes. -/
theorem exec_writes {i : Instr} {s t : State} (h : exec i s = .next t) :
    ∃ u ins rs, Writes s i u ∧ t = { u with inputs := ins, rsps := rs } := by
  obtain ⟨u, ins, rs, hu, ho⟩ := exec_leavesWrite i s
  exact ⟨u, ins, rs, hu, Host.Outcome.next.inj (h.symm.trans ho)⟩

/-! ### The invariant -/

/-- The invariant does not speak of the host's two lists. -/
theorem Inv.withLists {s : State} (h : Inv s) (ins : List Input) (rs : List Response) :
    Inv { s with inputs := ins, rsps := rs } :=
  ⟨h.canonical, h.inside, h.fill, h.unread, h.emit, h.summed, h.hvalid⟩

/-- With no frame in progress the invariant speaks of the buffer and the parser only. -/
theorem Inv.of_idle {s : State} (hidle : s.estate = .idle) (hcanonical : s.pbuf.wf)
    (hinside : ∀ c ∈ s.pbuf, c.1 < Config.pmax) (hhvalid : s.hvalid = true → s.hcnt = 0) : Inv s where
  canonical := hcanonical
  inside := hinside
  fill h := absurd (hidle.symm.trans h) (by decide)
  unread h := absurd (hidle.symm.trans h) (by decide)
  emit h := absurd (hidle.symm.trans h) (by decide)
  summed h := absurd hidle h
  hvalid := hhvalid

theorem isReset_inv {s : State} (h : IsReset s) (hempty : s.pbuf = []) : Inv s :=
  .of_idle h.estate (by simp [hempty, Memory.wf]) (by simp [hempty]) fun _ => h.hcnt

/-- An accepted ENCSTART has summed the header fields and no payload byte. -/
theorem startFrame_inv {s : State} (hinv : Inv s) (ty id : Byte) {len : Half} (hfits : len.toNat ≤ Config.pmax) :
    Inv (startFrame ty id len s) where
  canonical := hinv.canonical
  inside := hinv.inside
  fill hfill := by
    have hlen : len ≠ 0 := by
      rintro rfl
      cases hfill
    have hpos : len.toNat ≠ 0 := fun h => hlen (BitVec.eq_of_toNat_eq h)
    exact ⟨Nat.one_le_iff_ne_zero.mpr hpos, hfits, Nat.pos_of_ne_zero hpos⟩
  unread _ := rfl
  emit hemit := by
    have hlen : len = 0 := by
      by_contra hne
      cases (if_neg hne).symm.trans hemit
    exact ⟨hfits, hlen.symm, Nat.zero_le _⟩
  summed _ := ⟨[], rfl, nofun, rfl⟩
  hvalid := hinv.hvalid

/-- One byte more in the span is one addition more (R105 law 4). -/
theorem accOf_concat (p : List Byte) (b : Byte) : accOf (p ++ [b]) = accAdd (accOf p) b :=
  accFrom_append Config.csInit p [b]

/-- A payload byte stored at `PCNT` lengthens the span by itself. -/
theorem acceptPayloadByte_spanSummed {s : State} (b : Byte) (hsum : SpanSummed s)
    (hinside : s.pcnt.toNat < Config.pmax) (hnext : (s.pcnt + 1).toNat = s.pcnt.toNat + 1) :
    SpanSummed (acceptPayloadByte b s) := by
  obtain ⟨p, hlength, hheld, hacc⟩ := hsum
  refine ⟨p ++ [b], ?_, fun i hi => ?_, ?_⟩
  · change _ = (s.pcnt + 1).toNat
    rw [hnext, List.length_append, hlength, List.length_singleton]
  · change (memWrite s s.pcnt.toNat b).read i = _
    by_cases hlast : i = p.length
    · have hstored : (memWrite s s.pcnt.toNat b).read i = some b := by
        rw [hlast, hlength, memWrite_read_same b hinside]
      rw [hstored]
      simp [hlast]
    · have hold : i < p.length := by
        simp only [List.length_append, List.length_singleton] at hi
        omega
      rw [memWrite_read_other b (by omega), hheld i hold, List.getElem_append_left hold]
  · change accAdd s.acc b = accOf (headBytes Config.protoVer s.tType s.tId s.tLen ++ (p ++ [b]))
    rw [hacc, ← List.append_assoc, accOf_concat]

theorem memWrite_wf {s : State} (h : s.pbuf.wf) (a : Nat) (v : Byte) : (memWrite s a v).wf := by
  unfold memWrite
  split
  · exact write_wf a v h
  · exact h

/-- ENCPAY within the invariant: `PCNT` is below `T_LEN` and with it below `PMAX`, so nothing wraps. -/
theorem acceptPayloadByte_inv {s : State} (b : Byte) (hinv : Inv s) (hfill : s.estate = .fill) :
    Inv (acceptPayloadByte b s) := by
  obtain ⟨hpos, hfits, hlt⟩ := hinv.fill hfill
  have hnext : (s.pcnt + 1).toNat = s.pcnt.toNat + 1 := by
    have := s.tLen.isLt
    bv_omega
  have hinside : s.pcnt.toNat < Config.pmax := by omega
  have hbelow : (acceptPayloadByte b s).estate = .fill ↔ s.pcnt.toNat + 1 < s.tLen.toNat := by
    rw [← payloadComplete_eq_false_iff hinv hfill]
    cases h : payloadComplete s <;> simp [acceptPayloadByte, h]
  refine ⟨memWrite_wf hinv.canonical _ _, ?_, fun h => ?_, fun _ => hinv.unread hfill, fun h => ?_,
    fun _ => acceptPayloadByte_spanSummed b (hinv.summed (by rw [hfill]; decide)) hinside hnext, hinv.hvalid⟩
  · change ∀ c ∈ memWrite s _ b, _
    rw [memWrite_inside b hinside]
    exact write_inside b hinside hinv.inside
  · refine ⟨hpos, hfits, ?_⟩
    change (s.pcnt + 1).toNat < s.tLen.toNat
    rw [hnext]
    exact hbelow.mp h
  · have hfull : ¬ s.pcnt.toNat + 1 < s.tLen.toNat := fun hlt => by
      rw [hbelow.mpr hlt] at h
      cases h
    refine ⟨hfits, BitVec.eq_of_toNat_eq ?_, ?_⟩
    · change (s.pcnt + 1).toNat = s.tLen.toNat
      omega
    · change s.eidx.toNat ≤ _
      rw [hinv.unread hfill]
      exact Nat.zero_le _

/-- ENCEMIT within the invariant: before the last byte `EIDX` is below `5 + T_LEN`, with it the frame is over. -/
theorem passFrameByte_inv {s : State} (hinv : Inv s) (hemit : s.estate = .emit) : Inv (passFrameByte s) := by
  by_cases hlast : lastFlag s = true
  · exact .of_idle (by simp [passFrameByte, hlast]) hinv.canonical hinv.inside hinv.hvalid
  · have hmore : (passFrameByte s).estate = .emit := by simp [passFrameByte, hlast]
    obtain ⟨hfits, hpcnt, -⟩ := hinv.emit hemit
    have hlt := (lastFlag_eq_false_iff hinv hemit).mp (by simpa using hlast)
    refine ⟨hinv.canonical, hinv.inside, fun h => ?_, fun h => ?_, fun _ => ⟨hfits, hpcnt, ?_⟩,
      fun _ => hinv.summed (by rw [hemit]; decide), hinv.hvalid⟩
    · cases hmore.symm.trans h
    · cases hmore.symm.trans h
    · change (s.eidx + 1).toNat ≤ 5 + s.tLen.toNat
      have := s.tLen.isLt
      bv_omega

/-- The parser's operations write nothing of the encoder; of the invariant only the clause on `HVALID` is theirs. -/
theorem takeHeaderByte_inv {s : State} (b : Byte) (hinv : Inv s) : Inv (takeHeaderByte b s) := by
  refine ⟨hinv.canonical, hinv.inside, hinv.fill, hinv.unread, hinv.emit, hinv.summed, fun h => ?_⟩
  change s.hcnt + 1 = 0
  by_cases hfifth : s.hcnt = 5
  · rw [hfifth]
    rfl
  · by_cases hfirst : s.hcnt = 0
    · simp [takeHeaderByte, hfirst] at h
    · exact absurd (hinv.hvalid (by simpa [takeHeaderByte, hfirst, hfifth] using h)) hfirst

theorem Writes.inv {s u : State} {i : Instr} (hinv : Inv s) (hu : Writes s i u) : Inv u := by
  cases hu with
  | keep => exact hinv
  | csinit hidle => exact .of_idle hidle hinv.canonical hinv.inside hinv.hvalid
  | csadd b hidle => exact .of_idle hidle hinv.canonical hinv.inside hinv.hvalid
  | encstart ty id len hidle hfits => exact startFrame_inv hinv ty id hfits
  | encpay b hfill => exact acceptPayloadByte_inv b hinv hfill
  | encemit hemit => exact passFrameByte_inv hinv hemit
  | encabort => exact .of_idle rfl hinv.canonical hinv.inside hinv.hvalid
  | hdpush b => exact takeHeaderByte_inv b hinv
  | hdclr =>
    exact ⟨hinv.canonical, hinv.inside, hinv.fill, hinv.unread, hinv.emit, hinv.summed, fun _ => rfl⟩

theorem exec_keeps_inv {s t : State} {i : Instr} (hinv : Inv s) (h : exec i s = .next t) : Inv t := by
  obtain ⟨u, ins, rs, hu, rfl⟩ := exec_writes h
  exact (hu.inv hinv).withLists ins rs

theorem resetEvent_inv (s : State) : Inv s.resetEvent := isReset_inv (resetEvent_isReset s) rfl

/-- Settles O44: a step waits, resets, or runs an instruction, and each write of an instruction keeps the invariant. -/
theorem everyStepKeepsTheInvariant : Obligations.EveryStepKeepsTheInvariant := by
  intro s t hinv h
  obtain ⟨-, rfl⟩ | ⟨rest, -, rfl⟩ | ⟨x, i, rest, -, -, hexec⟩ := step_next h
  · exact hinv
  · exact resetEvent_inv _
  · exact exec_keeps_inv (hinv.withLists rest s.rsps) hexec

/-- Settles O12: the values of R270 are written in `State.reset`, and its buffer is empty. -/
theorem resetStateMeetsTheInvariant : Obligations.ResetStateMeetsTheInvariant := by
  have hreset : IsReset State.reset := ⟨rfl, rfl, rfl, rfl, rfl, rfl⟩
  exact ⟨hreset, isReset_inv hreset rfl⟩

/-! ### The writers of each register (10_state.md R21) -/

theorem Writes.acc {s u : State} {i : Instr} (hu : Writes s i u) (hinit : i ≠ .csinit) (hadd : ∀ b, i ≠ .csadd b)
    (hstart : ∀ ty id len, i ≠ .encstart ty id len) (hpay : ∀ b, i ≠ .encpay b) : u.acc = s.acc := by
  cases hu with
  | csinit => exact absurd rfl hinit
  | csadd b => exact absurd rfl (hadd b)
  | encstart ty id len => exact absurd rfl (hstart ty id len)
  | encpay b => exact absurd rfl (hpay b)
  | keep | encemit | encabort | hdpush | hdclr => rfl

theorem Writes.estate {s u : State} {i : Instr} (hu : Writes s i u)
    (hstart : ∀ ty id len, i ≠ .encstart ty id len) (hpay : ∀ b, i ≠ .encpay b) (hemit : i ≠ .encemit)
    (habort : i ≠ .encabort) : u.estate = s.estate := by
  cases hu with
  | encstart ty id len => exact absurd rfl (hstart ty id len)
  | encpay b => exact absurd rfl (hpay b)
  | encemit => exact absurd rfl hemit
  | encabort => exact absurd rfl habort
  | keep | csinit | csadd | hdpush | hdclr => rfl

theorem Writes.frameHeader {s u : State} {i : Instr} (hu : Writes s i u)
    (hstart : ∀ ty id len, i ≠ .encstart ty id len) :
    u.tType = s.tType ∧ u.tId = s.tId ∧ u.tLen = s.tLen := by
  cases hu with
  | encstart ty id len => exact absurd rfl (hstart ty id len)
  | keep | csinit | csadd | encpay | encemit | encabort | hdpush | hdclr => exact ⟨rfl, rfl, rfl⟩

theorem Writes.pcnt {s u : State} {i : Instr} (hu : Writes s i u)
    (hstart : ∀ ty id len, i ≠ .encstart ty id len) (hpay : ∀ b, i ≠ .encpay b) : u.pcnt = s.pcnt := by
  cases hu with
  | encstart ty id len => exact absurd rfl (hstart ty id len)
  | encpay b => exact absurd rfl (hpay b)
  | keep | csinit | csadd | encemit | encabort | hdpush | hdclr => rfl

theorem Writes.eidx {s u : State} {i : Instr} (hu : Writes s i u)
    (hstart : ∀ ty id len, i ≠ .encstart ty id len) (hemit : i ≠ .encemit) : u.eidx = s.eidx := by
  cases hu with
  | encstart ty id len => exact absurd rfl (hstart ty id len)
  | encemit => exact absurd rfl hemit
  | keep | csinit | csadd | encpay | encabort | hdpush | hdclr => rfl

/-- ENCPAY stores at `PCNT`, and nothing else stores. -/
theorem Writes.pbuf_read {s u : State} {i : Instr} (hu : Writes s i u) {a : Nat}
    (ha : (∀ b, i ≠ .encpay b) ∨ a ≠ s.pcnt.toNat) : u.pbuf.read a = s.pbuf.read a := by
  cases hu with
  | encpay b => exact memWrite_read_other b (ha.resolve_left fun h => h b rfl)
  | keep | csinit | csadd | encstart | encemit | encabort | hdpush | hdclr => rfl

theorem Writes.parserProgress {s u : State} {i : Instr} (hu : Writes s i u) (hpush : ∀ b, i ≠ .hdpush b)
    (hclr : i ≠ .hdclr) : u.hcnt = s.hcnt ∧ u.hvalid = s.hvalid := by
  cases hu with
  | hdpush b => exact absurd rfl (hpush b)
  | hdclr => exact absurd rfl hclr
  | keep | csinit | csadd | encstart | encpay | encemit | encabort => exact ⟨rfl, rfl⟩

theorem Writes.heldHeader {s u : State} {i : Instr} (hu : Writes s i u) (hpush : ∀ b, i ≠ .hdpush b) :
    u.hCk = s.hCk ∧ u.hVer = s.hVer ∧ u.hType = s.hType ∧ u.hId = s.hId ∧ u.hLen = s.hLen := by
  cases hu with
  | hdpush b => exact absurd rfl (hpush b)
  | keep | csinit | csadd | encstart | encpay | encemit | encabort | hdclr => exact ⟨rfl, rfl, rfl, rfl, rfl⟩

/-- Settles O50: the column "written by" of R21, register by register. -/
theorem registersChangeOnlyUnderTheirWriters : Obligations.RegistersChangeOnlyUnderTheirWriters := by
  intro s t i h
  obtain ⟨u, ins, rs, hu, rfl⟩ := exec_writes h
  exact ⟨fun ⟨hinit, hadd, hstart, hpay⟩ => hu.acc hinit hadd hstart hpay, hu.estate, hu.frameHeader, hu.pcnt,
    hu.eidx, fun _ => hu.pbuf_read, hu.parserProgress, hu.heldHeader⟩

/-- Settles O51: the operations that write what a frame's bytes are read from are performed in IDLE or FILL only. -/
theorem frameIsFixedWhileItIsReadOut : Obligations.FrameIsFixedWhileItIsReadOut := by
  intro s t i hemit h
  obtain ⟨u, ins, rs, hu, rfl⟩ := exec_writes h
  cases hu with
  | csinit hidle => exact absurd (hidle.symm.trans hemit) (by decide)
  | csadd b hidle => exact absurd (hidle.symm.trans hemit) (by decide)
  | encstart ty id len hidle => exact absurd (hidle.symm.trans hemit) (by decide)
  | encpay b hfill => exact absurd (hfill.symm.trans hemit) (by decide)
  | keep | encemit | encabort | hdpush | hdclr => exact ⟨rfl, rfl, rfl, rfl, rfl, fun _ => rfl⟩

/-! ### Totality (00_scope.md R8) -/

/-- Settles O45: every instruction goes on, so a step stops only where the decoder rejects; and no reason to fault
exists. -/
theorem stepsStopOnlyOnUndescribedTransfers : Obligations.StepsStopOnlyOnUndescribedTransfers := by
  refine ⟨fun s => ?_, nofun⟩
  match hin : s.inputs with
  | [] => exact .inl ⟨s, by simp [step, hin]⟩
  | .reset :: rest => exact .inl ⟨_, step_reset hin⟩
  | .transfer x :: rest =>
    cases hd : decode x with
    | error r => exact .inr ⟨x, rest, r, rfl, hd, step_rejected hin hd⟩
    | ok i =>
      obtain ⟨u, ins, rs, -, ho⟩ := exec_leavesWrite i { s with inputs := rest }
      exact .inl ⟨_, (step_transfer hin hd).trans ho⟩

end Sys2Proof.Machine

/-! ## What a response can depend on (10_state.md R38) -/

namespace Sys2Proof.Machine

/-! ### Outcomes that agree -/

/-- Both outcomes go on, to states that agree on all that a response can depend on. -/
def GoOnAlike (o o' : Host.Outcome State Fault Refusal) : Prop :=
  ∃ s' t', o = .next s' ∧ o' = .next t' ∧ SameVisible s' t'

theorem SameVisible.answer {s t : State} (h : SameVisible s t) (st : Status) (d : BitVec 48) :
    SameVisible (s.answer st d) (t.answer st d) :=
  { h with rsps := congrArg (· ++ [mkResponse st d]) h.rsps }

theorem SameVisible.withInputs {s t : State} (h : SameVisible s t) (ins : List Input) :
    SameVisible { s with inputs := ins } { t with inputs := ins } :=
  { h with inputs := rfl }

theorem respond_goOnAlike {u v : State} {d d' : BitVec 48} (h : SameVisible u v) (hd : d = d') :
    GoOnAlike (respond u d) (respond v d') :=
  ⟨_, _, rfl, rfl, hd ▸ h.answer .ok d⟩

theorem refuse_goOnAlike {s t : State} (h : SameVisible s t) (st : Status) :
    GoOnAlike (refuse s st) (refuse t st) :=
  ⟨_, _, rfl, rfl, h.answer st 0⟩

theorem requireEState_goOnAlike {s t : State} {e : EState} {k k' : Host.Outcome State Fault Refusal}
    (h : SameVisible s t) (hk : s.estate = e → GoOnAlike k k') :
    GoOnAlike (requireEState s e k) (requireEState t e k') := by
  by_cases he : s.estate = e
  · rw [requireEState_same k he, requireEState_same k' (h.estate.symm.trans he)]
    exact hk he
  · rw [requireEState_other k he, requireEState_other k' (h.estate ▸ he)]
    exact refuse_goOnAlike h .refusedState

theorem present_goOnAlike {s t : State} (h : SameVisible s t) (is : List Instr) :
    GoOnAlike (.next (s.present is)) (.next (t.present is)) :=
  ⟨_, _, rfl, rfl, { h with inputs := congrArg (asInputs is ++ ·) h.inputs }⟩

/-! ### The encoder -/

/-- ENCSTART writes every register of the encoder, and no payload byte is accepted yet. -/
theorem startFrame_sameVisible {s t : State} (h : SameVisible s t) (ty id : Byte) (len : Half) :
    SameVisible (startFrame ty id len s) (startFrame ty id len t) :=
  { h with
    acc := rfl
    estate := rfl
    pcnt := rfl
    eidx := rfl
    frame := fun _ => ⟨rfl, rfl, rfl⟩
    payload := fun _ i hi => absurd hi (Nat.not_lt_zero i) }

theorem execEncstart_goOnAlike {s t : State} (h : SameVisible s t) (ty id : Byte) (len : Half) :
    GoOnAlike (execEncstart ty id len s) (execEncstart ty id len t) := by
  refine requireEState_goOnAlike h fun _ => ?_
  split
  · exact refuse_goOnAlike h .refusedLen
  · exact respond_goOnAlike (startFrame_sameVisible h ty id len) rfl

/-- The accepted payload bytes agree again with the one stored at `PCNT`, which is inside the buffer. -/
theorem acceptPayloadByte_sameVisible {s t : State} (hinv : Inv s) (h : SameVisible s t) (b : Byte)
    (hfill : s.estate = .fill) : SameVisible (acceptPayloadByte b s) (acceptPayloadByte b t) := by
  have hbusy : s.estate ≠ .idle := by
    rw [hfill]
    decide
  obtain ⟨hty, hid, hlen⟩ := h.frame hbusy
  obtain ⟨-, hfits, hlt⟩ := hinv.fill hfill
  have hcomplete : payloadComplete s = payloadComplete t := by
    rw [payloadComplete, payloadComplete, h.pcnt, hlen]
  refine { h with
    acc := congrArg (accAdd · b) h.acc
    estate := by rw [acceptPayloadByte, acceptPayloadByte, hcomplete]
    pcnt := congrArg (· + 1) h.pcnt
    frame := fun _ => ⟨hty, hid, hlen⟩
    payload := fun _ i hi => ?_ }
  change (memWrite s s.pcnt.toNat b).read i = (memWrite t t.pcnt.toNat b).read i
  rw [← h.pcnt]
  by_cases hlast : i = s.pcnt.toNat
  · rw [hlast, memWrite_read_same b (by omega), memWrite_read_same b (by omega)]
  · have hold : i < s.pcnt.toNat := by
      change i < (s.pcnt + 1).toNat at hi
      bv_omega
    rw [memWrite_read_other b hlast, memWrite_read_other b hlast, h.payload hbusy i hold]

/-- In EMIT every payload byte up to `T_LEN` was accepted, so the buffer holds it (R33 item 4). -/
theorem payload_held {s : State} (hinv : Inv s) (hemit : s.estate = .emit) {i : Nat} (hi : i < s.tLen.toNat) :
    i < s.pcnt.toNat ∧ ∃ b, s.pbuf.read i = some b := by
  obtain ⟨-, hpcnt, -⟩ := hinv.emit hemit
  obtain ⟨p, hlength, hheld, -⟩ := hinv.summed (by rw [hemit]; decide)
  have hlt : i < s.pcnt.toNat := hpcnt ▸ hi
  exact ⟨hlt, _, hheld i (hlength ▸ hlt)⟩

/-- The frame byte at `EIDX` is a register that agrees, or an accepted payload byte. -/
theorem frameByte_eq_of_sameVisible {s t : State} (hinv : Inv s) (h : SameVisible s t) (hemit : s.estate = .emit) :
    frameByte s s.eidx.toNat = frameByte t t.eidx.toNat := by
  have hbusy : s.estate ≠ .idle := by
    rw [hemit]
    decide
  obtain ⟨hty, hid, hlen⟩ := h.frame hbusy
  obtain ⟨-, -, hle⟩ := hinv.emit hemit
  rw [← h.eidx]
  generalize s.eidx.toNat = k at hle
  match k with
  | 0 => exact congrArg accFinal h.acc
  | 1 => rfl
  | 2 => exact hty
  | 3 => exact hid
  | 4 => exact congrArg loByte hlen
  | 5 => exact congrArg hiByte hlen
  | i + 6 =>
    obtain ⟨hlt, b, hb⟩ := payload_held hinv hemit (i := i) (by omega)
    rw [frameByte_payload, frameByte_payload, memRead_held hb, memRead_held (h.payload hbusy i hlt ▸ hb)]

theorem lastFlag_eq_of_sameVisible {s t : State} (h : SameVisible s t) (hemit : s.estate = .emit) :
    lastFlag s = lastFlag t := by
  obtain ⟨-, -, hlen⟩ := h.frame (by rw [hemit]; decide)
  rw [lastFlag, lastFlag, h.eidx, hlen]

theorem passFrameByte_sameVisible {s t : State} (h : SameVisible s t) (hemit : s.estate = .emit) :
    SameVisible (passFrameByte s) (passFrameByte t) := by
  have hbusy : s.estate ≠ .idle := by
    rw [hemit]
    decide
  exact { h with
    estate := by rw [passFrameByte, passFrameByte, lastFlag_eq_of_sameVisible h hemit]
    eidx := congrArg (· + 1) h.eidx
    frame := fun _ => h.frame hbusy
    payload := fun _ => h.payload hbusy }

theorem execEncemit_goOnAlike {s t : State} (hinv : Inv s) (h : SameVisible s t) :
    GoOnAlike (execEncemit s) (execEncemit t) := by
  refine requireEState_goOnAlike h fun hemit => respond_goOnAlike (passFrameByte_sameVisible h hemit) ?_
  rw [lastFlag_eq_of_sameVisible h hemit, frameByte_eq_of_sameVisible hinv h hemit]

/-! ### The parser -/

/-- A register that the parser selects with `k` agrees after the byte that brings `HCNT` past `k`. -/
theorem selectedByte_eq {c k : Fin 6} {b x y : Byte} (h : k.val + 1 ≤ c.val → x = y)
    (hk : k.val + 1 ≤ (c + 1).val) : (if c = k then b else x) = if c = k then b else y := by
  refine ite_congr rfl (fun _ => rfl) fun hne => h ?_
  have hle : (c + 1).val ≤ c.val + 1 := by
    rw [Fin.val_add]
    exact Nat.mod_le _ _
  have hval : c.val ≠ k.val := fun h => hne (Fin.ext h)
  omega

/-- The held registers agree when the sixth byte completes the header, as those before it came in one by one; any
other byte that leaves a header valid found one held before. -/
theorem takeHeaderByte_held {s t : State} (h : SameVisible s t) (b : Byte)
    (hvalid : (takeHeaderByte b s).hvalid = true) :
    heldHeader (takeHeaderByte b s) = heldHeader (takeHeaderByte b t) := by
  simp only [heldHeader, takeHeaderByte, ← h.hcnt] at hvalid ⊢
  by_cases hsixth : s.hcnt = 5
  · have hge : ∀ k ≤ 5, k ≤ s.hcnt.val := fun k hk => hsixth ▸ hk
    simp [hsixth, h.hCk (hge 1 (by decide)), h.hVer (hge 2 (by decide)), h.hType (hge 3 (by decide)),
      h.hId (hge 4 (by decide)), h.hLen (hge 5 le_rfl)]
  · rw [if_neg hsixth] at hvalid
    split at hvalid
    case isTrue => cases hvalid
    case isFalse =>
    obtain ⟨hCk, hVer, hType, hId, hLen⟩ := h.held hvalid
    rw [hCk, hVer, hType, hId, hLen]

/-- The byte taken is the next of the header in progress, so one register more agrees; with the sixth, all do. -/
theorem takeHeaderByte_sameVisible {s t : State} (h : SameVisible s t) (b : Byte) :
    SameVisible (takeHeaderByte b s) (takeHeaderByte b t) := by
  refine { h with
    hcnt := congrArg (· + 1) h.hcnt
    hvalid := by simp only [takeHeaderByte, h.hcnt, h.hvalid]
    held := fun hvalid => by simpa [heldHeader] using takeHeaderByte_held h b hvalid
    hCk := fun hk => ?hCk
    hVer := fun hk => ?hVer
    hType := fun hk => ?hType
    hId := fun hk => ?hId
    hLen := fun hk => ?hLen }
  all_goals simp only [takeHeaderByte, ← h.hcnt] at hk ⊢
  case hCk => exact selectedByte_eq (k := 0) h.hCk hk
  case hVer => exact selectedByte_eq (k := 1) h.hVer hk
  case hType => exact selectedByte_eq (k := 2) h.hType hk
  case hId => exact selectedByte_eq (k := 3) h.hId hk
  case hLen =>
    have hfifth : s.hcnt = 4 := by
      revert hk
      generalize s.hcnt = c
      revert c
      decide
    simp [hfifth]

theorem execHdget_goOnAlike {s t : State} (h : SameVisible s t) : GoOnAlike (execHdget s) (execHdget t) := by
  cases hvalid : s.hvalid with
  | true =>
    obtain ⟨hCk, hVer, hType, hId, hLen⟩ := h.held hvalid
    rw [execHdget_of_hvalid hvalid, execHdget_of_hvalid (h.hvalid ▸ hvalid)]
    exact respond_goOnAlike h (by rw [heldHeader, heldHeader, hCk, hVer, hType, hId, hLen])
  | false =>
    rw [execHdget_of_not_hvalid hvalid, execHdget_of_not_hvalid (h.hvalid ▸ hvalid)]
    exact refuse_goOnAlike h .refusedState

/-- HDCLR drops the header, and with it all that the parser's registers have to agree on. -/
theorem hdclr_sameVisible {s t : State} (h : SameVisible s t) :
    SameVisible { s with hcnt := 0, hvalid := false } { t with hcnt := 0, hvalid := false } :=
  { h with
    hcnt := rfl
    hvalid := rfl
    held := nofun
    hCk := nofun
    hVer := nofun
    hType := nofun
    hId := nofun
    hLen := nofun }

/-! ### Every instruction and every step -/

/-- By the unit: checksum and encoder read `ACC`, their own registers in progress and accepted bytes; the parser its
registers taken; the rest nothing. -/
theorem exec_goOnAlike {s t : State} (hinv : Inv s) (h : SameVisible s t) (i : Instr) :
    GoOnAlike (exec i s) (exec i t) := by
  cases i with
  | csinit => exact requireEState_goOnAlike h fun _ => respond_goOnAlike { h with acc := rfl } rfl
  | csadd b =>
    exact requireEState_goOnAlike h fun _ =>
      respond_goOnAlike { h with acc := congrArg (accAdd · b) h.acc } rfl
  | csfin => exact requireEState_goOnAlike h fun _ => respond_goOnAlike h (by rw [h.acc])
  | encstart ty id len => exact execEncstart_goOnAlike h ty id len
  | encpay b =>
    exact requireEState_goOnAlike h fun hfill => respond_goOnAlike (acceptPayloadByte_sameVisible hinv h b hfill) rfl
  | encemit => exact execEncemit_goOnAlike hinv h
  | encabort =>
    exact respond_goOnAlike
      { h with estate := rfl, frame := fun hbusy => absurd rfl hbusy, payload := fun hbusy => absurd rfl hbusy } rfl
  | hdpush b =>
    rw [exec, exec, execHdpush_eq, execHdpush_eq, h.hcnt]
    exact respond_goOnAlike (takeHeaderByte_sameVisible h b) rfl
  | hdget => exact execHdget_goOnAlike h
  | hdclr => exact respond_goOnAlike (hdclr_sameVisible h) rfl
  | nop | pack op val | unpack w => exact respond_goOnAlike h rfl
  | reservedD | reservedE | reservedF => exact refuse_goOnAlike h .illegalOp
  | frame dir ck ver ty id len => cases dir <;> exact present_goOnAlike h _
  | greeting ck ver ty id => exact ⟨s, t, rfl, rfl, h⟩
  | unlock | loginReply | moveStatusCmd | statusReply | cw | rotE | rotF | stop => exact present_goOnAlike h _

/-- A reset ends the frame and the header in progress, so the unspecified contents it leaves need not agree. -/
theorem resetEvent_sameVisible {s t : State} (h : SameVisible s t) : SameVisible s.resetEvent t.resetEvent where
  acc := rfl
  estate := rfl
  pcnt := rfl
  eidx := rfl
  hcnt := rfl
  hvalid := rfl
  inputs := h.inputs
  rsps := h.rsps
  frame hbusy := absurd rfl hbusy
  payload hbusy := absurd rfl hbusy
  held := nofun
  hCk := nofun
  hVer := nofun
  hType := nofun
  hId := nofun
  hLen := nofun

/-- Settles O53: both states wait, reset, run one instruction or refuse one transfer, as their inputs are the same. -/
theorem unspecifiedContentsStayHidden : Obligations.UnspecifiedContentsStayHidden := by
  intro s t hinv _ h
  match hin : s.inputs with
  | [] => exact .inl ⟨s, t, by simp [step, hin], by simp [step, ← h.inputs, hin], h⟩
  | .reset :: rest =>
    exact .inl ⟨_, _, step_reset hin, step_reset (h.inputs ▸ hin), resetEvent_sameVisible (h.withInputs rest)⟩
  | .transfer x :: rest =>
    cases hd : decode x with
    | error r => exact .inr ⟨rejected r, step_rejected hin hd, step_rejected (h.inputs ▸ hin) hd⟩
    | ok i =>
      left
      rw [step_transfer hin hd, step_transfer (h.inputs ▸ hin) hd]
      exact exec_goOnAlike (hinv.withLists rest s.rsps) (h.withInputs rest) i

/-! ### Runs on requests and reset events -/

/-- Whatever a reset leaves in the unspecified elements, no frame and no header is in progress. -/
theorem isReset_sameVisible {s t : State} (hs : IsReset s) (ht : IsReset t) (hin : s.inputs = t.inputs)
    (hrsps : s.rsps = t.rsps) : SameVisible s t := by
  have hnone : ¬ s.hvalid = true := by simp [hs.hvalid]
  have hzero : ∀ k, ¬ k + 1 ≤ s.hcnt.val := by simp [hs.hcnt]
  exact {
    acc := hs.acc.trans ht.acc.symm
    estate := hs.estate.trans ht.estate.symm
    pcnt := hs.pcnt.trans ht.pcnt.symm
    eidx := hs.eidx.trans ht.eidx.symm
    hcnt := hs.hcnt.trans ht.hcnt.symm
    hvalid := hs.hvalid.trans ht.hvalid.symm
    inputs := hin
    rsps := hrsps
    frame := fun hbusy => absurd hs.estate hbusy
    payload := fun hbusy => absurd hs.estate hbusy
    held := fun h => absurd h hnone
    hCk := fun h => absurd h (hzero 0)
    hVer := fun h => absurd h (hzero 1)
    hType := fun h => absurd h (hzero 2)
    hId := fun h => absurd h (hzero 3)
    hLen := fun h => absurd h (hzero 4) }

/-- The input is one of FCP's port: a request, or the reset event. -/
def IsPortInput (x : Input) : Prop := x = .reset ∨ ∃ w, x = .transfer (.req w)

/-- The step on a port input goes on and takes only that input; a request gets one response, the reset event none. -/
theorem step_portInput {s : State} {x : Input} {rest : List Input} (hin : s.inputs = x :: rest)
    (hx : IsPortInput x) :
    ∃ t, step s = .next t ∧ t.inputs = rest ∧
      t.rsps.length = s.rsps.length + ([x].filter (fun x => decide (x ≠ .reset))).length := by
  obtain rfl | ⟨w, rfl⟩ := hx
  · exact ⟨_, step_reset hin, rfl, rfl⟩
  · rw [← encodeRequest_opsel_arg w] at hin
    obtain ⟨t, st, data, hstep, hrest, hrsps, -⟩ := everyRequestGetsOneResponse s (opselOf w) (argOf w) rest hin
    exact ⟨t, hstep, hrest, by rw [hrsps, List.length_append]; rfl⟩

/-- A run over port inputs keeps two states alike, and gives one response for each request. -/
theorem runSteps_portInputs {s t : State} (l : List Input) (hin : s.inputs = l) (hs : Inv s) (ht : Inv t)
    (h : SameVisible s t) (hl : ∀ x ∈ l, IsPortInput x) :
    ∃ s' t', runSteps l.length s = .next s' ∧ runSteps l.length t = .next t' ∧ s'.inputs = [] ∧
      s'.rsps = t'.rsps ∧
      s'.rsps.length = s.rsps.length + (l.filter (fun x => decide (x ≠ .reset))).length := by
  induction l generalizing s t with
  | nil => exact ⟨s, t, rfl, rfl, hin, h.rsps, rfl⟩
  | cons x rest ih =>
    obtain ⟨s₁, hstep, hrest, hcount⟩ := step_portInput hin (hl x List.mem_cons_self)
    obtain ⟨s₂, t₁, hs₂, ht₁, h₁⟩ | ⟨r, hr, -⟩ := unspecifiedContentsStayHidden s t hs ht h
    · obtain rfl : s₁ = s₂ := Host.Outcome.next.inj (hstep.symm.trans hs₂)
      obtain ⟨s', t', hrun, hrun', hdone, hrsps, hlength⟩ := ih hrest (everyStepKeepsTheInvariant s s₁ hs hstep)
        (everyStepKeepsTheInvariant t t₁ ht ht₁) h₁ fun y hy => hl y (List.mem_cons_of_mem x hy)
      refine ⟨s', t', (runSteps_succ _ hstep).trans hrun, (runSteps_succ _ ht₁).trans hrun', hdone, hrsps, ?_⟩
      rw [hlength, hcount, Nat.add_assoc, ← List.length_append, ← List.filter_append, List.singleton_append]
    · cases hstep.symm.trans hr

/-- Settles O54: two states that a reset may leave agree on all that a response can depend on. -/
theorem responsesDoNotDependOnResetContents : Obligations.ResponsesDoNotDependOnResetContents := by
  intro s t hsreset htreset hs ht hin hsrsps htrsps hports
  have h := isReset_sameVisible hsreset htreset hin (hsrsps.trans htrsps.symm)
  obtain ⟨s', t', hrun, hrun', hdone, hrsps, hlength⟩ := runSteps_portInputs s.inputs rfl hs ht h hports
  refine ⟨s', t', hrun, hrun', hdone, hrsps, ?_⟩
  rw [hlength, hsrsps, List.length_nil, Nat.zero_add]

end Sys2Proof.Machine

/-! ## The parser and the packer beside the checksum unit and the encoder (20_memory.md R57) -/

namespace Sys2Proof.Machine

/-! ### The two parts of the registers -/

/-- The registers of the header parser (10_state.md R29 to R31). -/
structure ParserRegs where
  hcnt : Fin 6
  hvalid : Bool
  hCk : Byte
  hVer : Byte
  hType : Byte
  hId : Byte
  hLen : Half

/-- The registers of the checksum unit and the encoder (10_state.md R23 to R28). -/
structure EncoderRegs where
  acc : Byte
  estate : EState
  tType : Byte
  tId : Byte
  tLen : Half
  pcnt : Half
  eidx : BitVec 17
  pbuf : Memory

/-- The parser's part of a state. -/
def State.parser (s : State) : ParserRegs := ⟨s.hcnt, s.hvalid, s.hCk, s.hVer, s.hType, s.hId, s.hLen⟩

/-- The encoder's part of a state. -/
def State.encoder (s : State) : EncoderRegs :=
  ⟨s.acc, s.estate, s.tType, s.tId, s.tLen, s.pcnt, s.eidx, s.pbuf⟩

/-- The state with both parts and the responses put in; the inputs and the draw counter stay. -/
def State.withParts (s : State) (p : ParserRegs) (e : EncoderRegs) (rs : List Response) : State :=
  { s with
    hcnt := p.hcnt, hvalid := p.hvalid, hCk := p.hCk, hVer := p.hVer, hType := p.hType, hId := p.hId, hLen := p.hLen
    acc := e.acc, estate := e.estate, tType := e.tType, tId := e.tId, tLen := e.tLen, pcnt := e.pcnt,
    eidx := e.eidx, pbuf := e.pbuf
    rsps := rs }

/-- The state with another parser's part. -/
def State.withParser (s : State) (p : ParserRegs) : State := s.withParts p s.encoder s.rsps

/-- The state with another encoder's part. -/
def State.withEncoder (s : State) (e : EncoderRegs) : State := s.withParts s.parser e s.rsps

theorem withParts_self (s : State) : s.withParts s.parser s.encoder s.rsps = s := rfl

/-- HDP, CWP and NOP: the operations that neither read nor write the encoder's part. -/
def IsParserOperation (i : Instr) : Prop :=
  (∃ b, i = .hdpush b) ∨ i = .hdget ∨ i = .hdclr ∨ (∃ op val, i = .pack op val) ∨ (∃ w, i = .unpack w) ∨ i = .nop

/-- CSU and ENC: the operations that neither read nor write the parser's part. -/
def IsEncoderOperation (j : Instr) : Prop :=
  j = .csinit ∨ (∃ b, j = .csadd b) ∨ j = .csfin ∨ (∃ ty id len, j = .encstart ty id len) ∨
    (∃ b, j = .encpay b) ∨ j = .encemit ∨ j = .encabort

/-- From the parser's part `p` the outcome has the parser's part `p'` and the response `r`, whatever the encoder's
part is. -/
def ActsOnParser (f : State → Host.Outcome State Fault Refusal) (s : State) (p : ParserRegs) : Prop :=
  ∃ p' r, ∀ e rs, f (s.withParts p e rs) = .next (s.withParts p' e (rs ++ [r]))

/-- The same with the two parts exchanged. -/
def ActsOnEncoder (f : State → Host.Outcome State Fault Refusal) (s : State) (e : EncoderRegs) : Prop :=
  ∃ e' r, ∀ p rs, f (s.withParts p e rs) = .next (s.withParts p e' (rs ++ [r]))

theorem execHdget_actsOnParser (s : State) (p : ParserRegs) : ActsOnParser execHdget s p := by
  cases hvalid : p.hvalid with
  | true =>
    exact ⟨p, mkResponse .ok (dataHeader ⟨p.hCk, p.hVer, p.hType, p.hId, p.hLen⟩),
      fun _ _ => execHdget_of_hvalid hvalid⟩
  | false => exact ⟨p, mkResponse .refusedState 0, fun _ _ => execHdget_of_not_hvalid hvalid⟩

theorem parserOperation_acts {i : Instr} (hi : IsParserOperation i) (s : State) (p : ParserRegs) :
    ActsOnParser (exec i) s p := by
  obtain ⟨b, rfl⟩ | rfl | rfl | ⟨op, val, rfl⟩ | ⟨w, rfl⟩ | rfl := hi
  · exact ⟨(takeHeaderByte b (s.withParser p)).parser,
      mkResponse .ok (dataValid (decide (p.hcnt = 5))), fun _ _ => execHdpush_eq b _⟩
  · exact execHdget_actsOnParser s p
  · exact ⟨{ p with hcnt := 0, hvalid := false }, mkResponse .ok 0, fun _ _ => rfl⟩
  · exact ⟨p, mkResponse .ok (dataWord (packWord op val)), fun _ _ => rfl⟩
  · exact ⟨p, mkResponse .ok (dataUnpack w), fun _ _ => rfl⟩
  · exact ⟨p, mkResponse .ok 0, fun _ _ => rfl⟩

/-- A state check reads the encoder's part only. -/
theorem requireEState_actsOnEncoder {s : State} {e : EncoderRegs} {x : EState}
    {k : State → Host.Outcome State Fault Refusal} (hk : ActsOnEncoder k s e) :
    ActsOnEncoder (fun u => requireEState u x (k u)) s e := by
  by_cases he : e.estate = x
  · obtain ⟨e', r, h⟩ := hk
    exact ⟨e', r, fun p rs => (requireEState_same _ he).trans (h p rs)⟩
  · exact ⟨e, mkResponse .refusedState 0, fun _ _ => requireEState_other _ he⟩

/-- The length check reads no part. -/
theorem execEncstart_actsOnEncoder (ty id : Byte) (len : Half) (s : State) (e : EncoderRegs) :
    ActsOnEncoder (execEncstart ty id len) s e := by
  refine requireEState_actsOnEncoder ?_
  by_cases hlong : Config.pmax < len.toNat
  · exact ⟨e, mkResponse .refusedLen 0, fun _ _ => if_pos hlong⟩
  · exact ⟨(startFrame ty id len (s.withEncoder e)).encoder, mkResponse .ok 0, fun _ _ => if_neg hlong⟩

theorem encoderOperation_acts {j : Instr} (hj : IsEncoderOperation j) (s : State) (e : EncoderRegs) :
    ActsOnEncoder (exec j) s e := by
  obtain rfl | ⟨b, rfl⟩ | rfl | ⟨ty, id, len, rfl⟩ | ⟨b, rfl⟩ | rfl | rfl := hj
  · exact requireEState_actsOnEncoder ⟨{ e with acc := Config.csInit }, mkResponse .ok 0, fun _ _ => rfl⟩
  · exact requireEState_actsOnEncoder ⟨{ e with acc := accAdd e.acc b }, mkResponse .ok 0, fun _ _ => rfl⟩
  · exact requireEState_actsOnEncoder ⟨e, mkResponse .ok (dataByte (accFinal e.acc)), fun _ _ => rfl⟩
  · exact execEncstart_actsOnEncoder ty id len s e
  · exact requireEState_actsOnEncoder
      ⟨(acceptPayloadByte b (s.withEncoder e)).encoder, mkResponse .ok 0, fun _ _ => rfl⟩
  · let u := s.withEncoder e
    exact requireEState_actsOnEncoder
      ⟨(passFrameByte u).encoder, mkResponse .ok (dataEmit (lastFlag u) (frameByte u u.eidx.toNat)), fun _ _ => rfl⟩
  · exact ⟨{ e with estate := .idle }, mkResponse .ok 0, fun _ _ => rfl⟩

/-- Settles O52: the two operations act on different parts of the registers, and each finds its own part as it was. -/
theorem parserAndPackerCommuteWithTheRest : Obligations.ParserAndPackerCommuteWithTheRest := by
  intro s s1 s2 t1 t2 i j hi hj hs1 ht1 hs2 ht2
  obtain ⟨p, ri, hparser⟩ := parserOperation_acts hi s s.parser
  obtain ⟨e, rj, hencoder⟩ := encoderOperation_acts hj s s.encoder
  rw [← withParts_self s] at hs1 hs2
  obtain rfl : s1 = _ := Host.Outcome.next.inj (hs1.symm.trans (hparser _ _))
  obtain rfl : s2 = _ := Host.Outcome.next.inj (hs2.symm.trans (hencoder _ _))
  obtain rfl : t1 = _ := Host.Outcome.next.inj (ht1.symm.trans (hencoder _ _))
  obtain rfl : t2 = _ := Host.Outcome.next.inj (ht2.symm.trans (hparser _ _))
  exact ⟨ri, rj, List.append_assoc .., List.append_assoc .., rfl⟩

end Sys2Proof.Machine

/-! ## The pure functions (40_checksum.md R100 to R107, 41_frame_encoder.md R121, 42_header_parser.md R151,
43_command_word.md R171 to R174) -/

namespace Sys2Proof.Machine

/-! ### The checksum -/

theorem accOf_toNat (p : List Byte) : (accOf p).toNat = (255 + (p.map BitVec.toNat).sum) % 256 :=
  accFrom_toNat Config.csInit p

/-- The final inversion is the complement of eight bits. -/
theorem accFinal_toNat (a : Byte) : (accFinal a).toNat = 255 - a.toNat := by
  have hnot : accFinal a = ~~~a := BitVec.xor_allOnes
  rw [hnot, BitVec.toNat_not]

/-- Negation in two's complement: the inversion of `255 + sum` (R105 law 2). -/
theorem csum_toNat (p : List Byte) : (csum p).toNat = (256 - (p.map BitVec.toNat).sum % 256) % 256 := by
  rw [csum, accFinal_toNat, accOf_toNat]
  omega

/-- Settles O34; of a frame, the checksum and the span it negates stand side by side. -/
theorem checksumIsTheNegatedByteSum : Obligations.ChecksumIsTheNegatedByteSum := by
  refine ⟨accOf_toNat, csum_toNat, fun ver ty id p => ?_⟩
  rw [encodeFrame, List.map_cons, List.sum_cons, csum_toNat]
  omega

/-- Two checksums are equal exactly when the byte sums are equal modulo 256. -/
theorem csum_eq_iff (p q : List Byte) :
    csum p = csum q ↔ (p.map BitVec.toNat).sum % 256 = (q.map BitVec.toNat).sum % 256 := by
  rw [← BitVec.toNat_inj, csum_toNat, csum_toNat]
  omega

/-- Settles O35: the byte sum modulo 256 ignores order and 0, and two bytes below 256 are told apart by it. -/
theorem checksumOrderAndSingleByteLaws : Obligations.ChecksumOrderAndSingleByteLaws := by
  refine ⟨fun p q hperm => ?_, fun p => ?_, fun p q b c hne heq => hne ?_⟩
  · rw [csum_eq_iff, (hperm.map BitVec.toNat).sum_eq]
  · simp [csum_eq_iff]
  · rw [csum_eq_iff] at heq
    simp only [List.map_append, List.map_cons, List.sum_append, List.sum_cons] at heq
    have hb := b.isLt
    have hc := c.isLt
    exact BitVec.eq_of_toNat_eq (by omega)

/-! ### The encoded frame -/

/-- The length bytes of a payload that a header can announce. -/
theorem loByte_ofNat (n : Nat) : loByte (BitVec.ofNat 16 n) = BitVec.ofNat 8 (n % 256) := by
  apply BitVec.eq_of_toNat_eq
  rw [loByte_toNat, BitVec.toNat_ofNat, BitVec.toNat_ofNat]
  omega

theorem hiByte_ofNat {n : Nat} (h : n ≤ 65535) : hiByte (BitVec.ofNat 16 n) = BitVec.ofNat 8 (n / 256) := by
  apply BitVec.eq_of_toNat_eq
  rw [hiByte_toNat, BitVec.toNat_ofNat, BitVec.toNat_ofNat]
  omega

/-- The six header bytes of an encoded frame, then its payload. -/
theorem encodeFrame_eq_append (ver ty id : Byte) (p : List Byte) :
    encodeFrame ver ty id p =
      headerBytes ⟨csum (encodeFrame ver ty id p).tail, ver, ty, id, BitVec.ofNat 16 p.length⟩ ++ p := rfl

/-- The checksum is determined by the rest, the rest by its bytes one by one. -/
theorem encodeFrame_inj {ver ty id ver' ty' id' : Byte} {p p' : List Byte}
    (h : encodeFrame ver ty id p = encodeFrame ver' ty' id' p') : ver = ver' ∧ ty = ty' ∧ id = id' ∧ p = p' := by
  obtain ⟨-, hver, hty, hid, -, -, hp⟩ := by simpa [encodeFrame, headBytes] using h
  exact ⟨hver, hty, hid, hp⟩

/-- Settles O36: the layout is that of the six header bytes and the payload. -/
theorem encodedFrameLayout : Obligations.EncodedFrameLayout := by
  refine ⟨fun ver ty id p => ⟨?_, rfl, rfl⟩, fun ver ty id p hp => ?_, fun _ _ _ _ _ _ _ _ => encodeFrame_inj⟩
  · rw [encodeFrame_eq_append, List.length_append]
    rfl
  · rw [← loByte_ofNat, ← hiByte_ofNat hp]
    rfl

/-! ### The parsed header -/

theorem decodeHeaderBytes_headerBytes (h : HeaderValue) : decodeHeaderBytes (headerBytes h) = some h := by
  rw [headerBytes, decodeHeaderBytes, joinLen_lo_hi]

/-- Only six bytes have a header, and it gives them back. -/
theorem decodeHeaderBytes_eq_some {bytes : List Byte} {h : HeaderValue} (hdec : decodeHeaderBytes bytes = some h) :
    headerBytes h = bytes := by
  unfold decodeHeaderBytes at hdec
  split at hdec
  · cases hdec
    rw [headerBytes, loByte_joinLen, hiByte_joinLen]
  · cases hdec

theorem decodeHeaderBytes_isSome_iff (bytes : List Byte) :
    (decodeHeaderBytes bytes).isSome = true ↔ bytes.length = 6 := by
  match bytes with
  | [] | [_] | [_, _] | [_, _, _] | [_, _, _, _] | [_, _, _, _, _] | [_, _, _, _, _, _] =>
    simp [decodeHeaderBytes]
  | _ :: _ :: _ :: _ :: _ :: _ :: _ :: _ => simp [decodeHeaderBytes]

/-- The right part of an assembled word is its low part. -/
theorem append_toNat {m n : Nat} (a : BitVec m) (b : BitVec n) : (a ++ b).toNat = a.toNat * 2 ^ n + b.toNat := by
  rw [BitVec.toNat_append, ← Nat.shiftLeft_add_eq_or_of_lt b.isLt, Nat.shiftLeft_eq]

theorem joinLen_toNat (b4 b5 : Byte) : (joinLen b4 b5).toNat = b4.toNat + 256 * b5.toNat := by
  rw [joinLen, append_toNat]
  omega

/-- Settles O38. -/
theorem headerParsingIsABijection : Obligations.HeaderParsingIsABijection := by
  refine ⟨decodeHeaderBytes_headerBytes, fun _ _ => decodeHeaderBytes_eq_some, decodeHeaderBytes_isSome_iff,
    fun b0 b1 b2 b3 b4 b5 h hdec => ?_⟩
  cases hdec
  exact joinLen_toNat b4 b5

/-- Settles O37: the first six bytes of the frame are the bytes of its header. -/
theorem encoderAndParserAgree : Obligations.EncoderAndParserAgree := by
  intro ver ty id p hp
  refine ⟨_, decodeHeaderBytes_headerBytes ⟨csum (encodeFrame ver ty id p).tail, ver, ty, id, BitVec.ofNat 16 p.length⟩,
    rfl, rfl, rfl, ?_, rfl⟩
  exact (BitVec.toNat_ofNat ..).trans (Nat.mod_eq_of_lt (by omega))

/-! ### The command word -/

theorem unpackOp_packWord (op : BitVec 6) (val : BitVec 22) : unpackOp (packWord op val) = op := by
  rw [unpackOp_eq, packWord_eq, wordOp_encodeWord]

theorem unpackVal_packWord (op : BitVec 6) (val : BitVec 22) : unpackVal (packWord op val) = val := by
  rw [unpackVal_eq, packWord_eq, wordVal_encodeWord]

/-- Settles O39: `pack` is the layout of R78 and `unpack` its fields; over naturals the value is the same sum. -/
theorem unpackInvertsPack : Obligations.UnpackInvertsPack := by
  intro op val
  refine ⟨unpackOp_packWord op val, unpackVal_packWord op val, ?_, ?_, ?_⟩
  · rw [unpackAct_eq, packWord_eq, wordAct_encodeWord]
  · rw [unpackRsv_eq, packWord_eq, wordRsv_encodeWord]
  · rw [packWord_toNat, packNat, if_pos ⟨op.isLt, val.isLt⟩]

/-- Packing drops the action and reserved bits, and keeps the fields above them. -/
theorem packWord_fields (w : Word) : packWord (unpackOp w) (unpackVal w) = w &&& 0xFFFFFFF0 := by
  have hmask : w &&& 0xFFFFFFF0 &&& 0xFFFFFFF0 = w &&& 0xFFFFFFF0 := by rw [BitVec.and_assoc, BitVec.and_self]
  have hop : wordOp (w &&& 0xFFFFFFF0) = wordOp w := field_eq_of_masked_eq hmask rfl
  have hval : wordVal (w &&& 0xFFFFFFF0) = wordVal w := field_eq_of_masked_eq hmask rfl
  have hlow : w &&& 0xFFFFFFF0 &&& 0xF = 0 := (BitVec.and_assoc ..).trans BitVec.and_zero
  obtain ⟨hrsv, hact⟩ := (low_bits_eq_zero_iff _).mp hlow
  rw [packWord_eq, unpackOp_eq, unpackVal_eq, ← hop, ← hval, encodeWord_fields hrsv hact]

/-- Settles O40: a word is its four fields, and packing clears two of them. -/
theorem packOfUnpackClearsTheLowBits : Obligations.PackOfUnpackClearsTheLowBits := by
  refine ⟨packWord_fields, fun w => ⟨?_, fun hlow => ?_⟩, fun w w' hop hval hact hrsv => ?_⟩
  · rintro ⟨op, val, rfl⟩
    rw [packWord_eq, low_bits_eq_zero_iff]
    exact ⟨wordRsv_encodeWord op val, wordAct_encodeWord op val⟩
  · obtain ⟨hrsv, hact⟩ := (low_bits_eq_zero_iff w).mp hlow
    exact ⟨wordOp w, wordVal w, (packWord_eq _ _).trans (encodeWord_fields hrsv hact)⟩
  · simp only [unpackOp_eq, unpackVal_eq, unpackAct_eq, unpackRsv_eq] at hop hval hact hrsv
    rw [← word_fields w, hop, hval, hact, hrsv, word_fields]

/-- Settles O41: the two bounds of D30 are those of the definition, written without strictness. -/
theorem packOverNaturalsDoesNotTruncate : Obligations.PackOverNaturalsDoesNotTruncate := by
  intro op val
  unfold packNat
  split
  case isTrue h => exact iff_of_true rfl (by omega)
  case isFalse h => exact iff_of_false nofun (by omega)

/-! ### The payload bytes of a command word -/

theorem bytesWord_wordBytes (w : Word) : bytesWord (wordBytes w) = some w := by
  refine congrArg some ?_
  ext i h
  grind

theorem wordBytes_append (b0 b1 b2 b3 : Byte) : wordBytes (b3 ++ (b2 ++ (b1 ++ b0))) = [b0, b1, b2, b3] := by
  simp only [wordBytes, List.cons.injEq, and_true]
  and_intros
  all_goals
    ext i h
    grind

/-- Little-endian over naturals. -/
theorem append_bytes_toNat (b0 b1 b2 b3 : Byte) : (b3 ++ (b2 ++ (b1 ++ b0))).toNat =
    b0.toNat + 256 * b1.toNat + 65536 * b2.toNat + 16777216 * b3.toNat := by
  simp only [append_toNat]
  omega

/-- Settles O42. -/
theorem wordBytesAreLittleEndian : Obligations.WordBytesAreLittleEndian :=
  ⟨fun _ => rfl, bytesWord_wordBytes, fun b0 b1 b2 b3 =>
    ⟨_, rfl, wordBytes_append b0 b1 b2 b3, append_bytes_toNat b0 b1 b2 b3⟩⟩

/-- The payload bytes over naturals: the digits of the word to the base 256. -/
theorem wordBytes_toNat (w : Word) : (wordBytes w).map BitVec.toNat =
    [w.toNat % 256, w.toNat / 256 % 256, w.toNat / 65536 % 256, w.toNat / 16777216] := by
  have hlt : w.toNat / 16777216 < 256 := by omega
  simpa [wordBytes, Nat.shiftRight_eq_div_pow] using hlt

/-- Settles O43: the digits of `val * 1024 + op * 16` to the base 256. -/
theorem packedWordBytesByField : Obligations.PackedWordBytesByField := by
  intro op val
  have hop := op.isLt
  have hval := val.isLt
  rw [wordBytes_toNat, packWord_toNat]
  simp only [List.cons.injEq, and_true]
  omega

end Sys2Proof.Machine

/-! ## Single steps, and what a header or a command word presents (20_memory.md R57, 30_encoding.md R93) -/

namespace Sys2Proof.Machine

/-! ### Steps -/

/-- Settles O9: the step on a transfer is its instruction, by the decoder alone. -/
theorem stepRunsTheDecodedInstruction : Obligations.StepRunsTheDecodedInstruction := fun _ _ _ _ => step_transfer

/-- Settles O10: with no input FCP waits, and the reset event takes only its own place in the inputs. -/
theorem waitingAndResetKeepTheInputs : Obligations.WaitingAndResetKeepTheInputs :=
  ⟨fun s hin => by simp [step, hin], fun _ _ hin => ⟨_, step_reset hin, rfl⟩⟩

/-! ### The encoder -/

/-- An ENCSTART that fits the buffer starts its frame. -/
theorem execEncstart_of_fits {s : State} {len : Half} (ty id : Byte) (hidle : s.estate = .idle)
    (hfits : len.toNat ≤ Config.pmax) : execEncstart ty id len s = respond (startFrame ty id len s) 0 :=
  (requireEState_same _ hidle).trans (if_neg (Nat.not_lt.mpr hfits))

/-- Settles O19: `PMAX` is at least 8, so the length check passes. -/
theorem encstartAcceptsEveryNamedLength : Obligations.EncstartAcceptsEveryNamedLength := by
  intro s ty id len hidle hlen
  refine ⟨_, execEncstart_of_fits ty id hidle (hlen.trans Config.eight_le_pmax), rfl, rfl, rfl, rfl, rfl, rfl, ?_⟩
  change ((if len = 0 then EState.emit else .fill) = .emit ↔ len = 0) ∧
    ((if len = 0 then EState.emit else .fill) = .fill ↔ len ≠ 0)
  split
  case isTrue h => exact ⟨iff_of_true rfl h, iff_of_false nofun (not_not.mpr h)⟩
  case isFalse h => exact ⟨iff_of_false nofun h, iff_of_true rfl h⟩

/-- Settles O22: the byte is the frame byte at `EIDX`, a free value where the buffer does not hold it. -/
theorem encemitCompletesOnEveryBufferByte : Obligations.EncemitCompletesOnEveryBufferByte := fun s hemit =>
  ⟨frameByte s s.eidx.toNat, execEncemit_of_emit hemit⟩

/-! ### Headers and command words -/

/-- Settles O29: the sequences of R93 for the three rows to the device, written out. -/
theorem headersToTheDeviceAreEncoded : Obligations.HeadersToTheDeviceAreEncoded := fun _ _ _ _ _ _ =>
  ⟨rfl, rfl, rfl⟩

/-- The sequence DECODEHDR of a header, its bytes in wire order. -/
theorem presentParse_eq (ck ver ty id : Byte) (len : Half) (s : State) :
    presentParse ⟨ck, ver, ty, id, len⟩ s = .next
      { s with inputs := asInputs [.hdpush ck, .hdpush ver, .hdpush ty, .hdpush id, .hdpush (len.extractLsb' 0 8),
        .hdpush (len.extractLsb' 8 8), .hdget] ++ s.inputs } := rfl

/-- Settles O30: three rows present DECODEHDR of their header, and the greeting nothing. -/
theorem headersToTheHostAreParsed : Obligations.HeadersToTheHostAreParsed := fun s ck ver ty id len =>
  ⟨presentParse_eq ck ver ty id len s, presentParse_eq ck 3 1 id 7 s, presentParse_eq ck 3 2 id 7 s, rfl⟩

/-- A packed word is its sum over naturals as a word (R171). -/
theorem packWord_eq_ofNat (op : BitVec 6) (val : BitVec 22) :
    packWord op val = BitVec.ofNat 32 (val.toNat * 1024 + op.toNat * 16) := by
  rw [← packWord_toNat, BitVec.ofNat_toNat, BitVec.setWidth_eq]

/-- The sequence CMDFRAME of a word, its payload bytes written out (R185). -/
theorem presentCommand_eq (op : BitVec 6) (val : BitVec 22) (s : State) :
    let w : Word := BitVec.ofNat 32 (val.toNat * 1024 + op.toNat * 16)
    presentCommand op val s = .next
      { s with inputs := asInputs ([.pack op val, .encstart 2 0 4, .encpay (w.extractLsb' 0 8),
        .encpay (w.extractLsb' 8 8), .encpay (w.extractLsb' 16 8), .encpay (w.extractLsb' 24 8)] ++
        List.replicate 10 .encemit) ++ s.inputs } := by
  rw [← packWord_eq_ofNat]
  rfl

/-- Settles O31: all four rows present CMDFRAME, of their own opcode and operand. -/
theorem commandWordsAreSentInAFrame : Obligations.CommandWordsAreSentInAFrame := fun s op val =>
  ⟨presentCommand_eq op val s, presentCommand_eq 0x0E val s, presentCommand_eq 0x0F val s, presentCommand_eq 0x22 0 s⟩

/-! ### The login reply (R77) -/

theorem handshakeOutcome_eq_ready_iff (access : Byte) : handshakeOutcome access = .ready ↔ access = 0x01 := by
  unfold handshakeOutcome
  split
  case isTrue h => exact iff_of_true rfl h
  case isFalse h => exact iff_of_false nofun h

theorem handshakeOutcome_eq_degraded_iff (access : Byte) : handshakeOutcome access = .degraded ↔ access ≠ 0x01 := by
  unfold handshakeOutcome
  split
  case isTrue h => exact iff_of_false nofun (not_not.mpr h)
  case isFalse h => exact iff_of_true rfl h

/-- Settles O58: the byte at each offset is read off the 13 bytes, and decides the outcome of R217. -/
theorem loginReplyAccessCodeIsItsLastByte : Obligations.LoginReplyAccessCodeIsItsLastByte := by
  intro ck id p0 p1 p2 p3 p4 p5 p6 payload frame
  have houtcome : loginOutcome payload = some (handshakeOutcome p6) := rfl
  refine ⟨rfl, rfl, rfl, rfl, rfl, ?_, ?_, fun h hoffset => ?_, fun h hoffset => ?_⟩
  · rw [houtcome, Option.some_inj, handshakeOutcome_eq_ready_iff]
  · rw [houtcome, Option.some_inj, handshakeOutcome_eq_degraded_iff]
  · rw [HostParams.handshake, hoffset]
    rfl
  · rw [HostParams.handshake, hoffset]
    rfl

end Sys2Proof.Machine

/-! ## The pseudo-operations as runs (30_encoding.md R93) -/

namespace Sys2Proof.Machine

/-! ### Presented sequences -/

/-- The sequence `is`, presented in front of the inputs of `s` and of any sequence `js`, runs from `s` to `t`: one
step for each instruction, and `js` still presented. -/
def Runs (s : State) (is : List Instr) (t : State) : Prop :=
  ∀ js, runSteps is.length (s.present (is ++ js)) = .next (t.present js)

theorem Runs.nil (s : State) : Runs s [] s := fun _ => rfl

/-- One step runs the first instruction, with the others still presented. -/
theorem Runs.single {s t : State} {i : Instr} (hi : i.WellFormed = true)
    (h : ∀ js, exec i (s.present js) = .next (t.present js)) : Runs s [i] t := fun js =>
  runSteps_succ 0 ((step_transfer rfl (decodeOfEncodeIsTheInstruction i hi)).trans (h js))

theorem Runs.append {s t u : State} {is js : List Instr} (h : Runs s is t) (h' : Runs t js u) :
    Runs s (is ++ js) u := by
  intro ks
  rw [List.length_append, List.append_assoc, runSteps_add _ _ (h _)]
  exact h' ks

/-- The run of a state that has the sequence in front of its inputs. -/
theorem Runs.runSteps_eq {s t : State} {is : List Instr} {rest : List Input} {n : Nat}
    (h : Runs { s with inputs := rest } is t) (hin : s.inputs = asInputs is ++ rest) (hn : is.length = n) :
    runSteps n s = .next t := by
  have hs : s = ({ s with inputs := rest } : State).present is := by rw [State.present, ← hin]
  have hrun := h []
  rw [List.append_nil, ← hs, hn] at hrun
  exact hrun

/-- The response of an accepted operation without data. -/
def plainOk : Response := mkResponse .ok 0

theorem append_replicate_succ (rs : List Response) (n : Nat) (r : Response) :
    rs ++ [r] ++ List.replicate n r = rs ++ List.replicate (n + 1) r := by
  rw [List.append_assoc, List.singleton_append, ← List.replicate_succ]

/-! ### CHECKSUM (40_checksum.md R104) -/

theorem runs_csadd {s : State} (hidle : s.estate = .idle) (p : List Byte) :
    Runs s (p.map Instr.csadd)
      { s with acc := accFrom s.acc p, rsps := s.rsps ++ List.replicate p.length plainOk } := by
  induction p generalizing s with
  | nil =>
    rw [List.length_nil, List.replicate_zero, List.append_nil]
    exact .nil s
  | cons b p ih =>
    have hfirst : Runs s [.csadd b] { s with acc := accAdd s.acc b, rsps := s.rsps ++ [plainOk] } :=
      .single rfl fun _ => requireEState_same _ hidle
    rw [List.length_cons, ← append_replicate_succ]
    exact hfirst.append (ih hidle)

theorem runs_checksum {s : State} (hidle : s.estate = .idle) (p : List Byte) :
    Runs s (pseudoChecksum p)
      { s with
        acc := accOf p
        rsps := s.rsps ++ List.replicate (p.length + 1) plainOk ++ [mkResponse .ok (dataByte (csum p))] } := by
  have hinit : Runs s [.csinit] { s with acc := Config.csInit, rsps := s.rsps ++ [plainOk] } :=
    .single rfl fun _ => requireEState_same _ hidle
  have hadd := runs_csadd (s := { s with acc := Config.csInit, rsps := s.rsps ++ [plainOk] }) hidle p
  have hfin {u : State} (hu : u.estate = .idle) : Runs u [.csfin] (u.answer .ok (dataByte (accFinal u.acc))) :=
    .single rfl fun _ => requireEState_same _ hu
  rw [← append_replicate_succ]
  exact hinit.append (hadd.append (hfin hidle))

/-- Settles O55: the run of CHECKSUM. -/
theorem checksumSequenceComputesCsum : Obligations.ChecksumSequenceComputesCsum := by
  intro s p rest hidle hin
  exact (runs_checksum (s := { s with inputs := rest }) hidle p).runSteps_eq hin (by simp [pseudoChecksum])

/-! ### ENCODE (41_frame_encoder.md R127) -/

/-- The state once the payload bytes `p`, the last of the frame, are accepted into the buffer `m`. -/
def State.withPayload (s : State) (p : List Byte) (m : Memory) : State :=
  { s with
    acc := accFrom s.acc p
    estate := .emit
    pcnt := s.tLen
    pbuf := m
    rsps := s.rsps ++ List.replicate p.length plainOk }

/-- ENCPAY for each payload byte that is still to come, from the index `PCNT` on. -/
theorem runs_encpay {s : State} (p : List Byte) (hestate : s.estate = if p = [] then .emit else .fill)
    (hcount : s.pcnt.toNat + p.length = s.tLen.toNat) (hfits : s.tLen.toNat ≤ Config.pmax) :
    ∃ m : Memory, (∀ a < s.pcnt.toNat, m.read a = s.pbuf.read a) ∧
      (∀ k (h : k < p.length), m.read (s.pcnt.toNat + k) = some p[k]) ∧
      Runs s (p.map Instr.encpay) (s.withPayload p m) := by
  induction p generalizing s with
  | nil =>
    refine ⟨s.pbuf, fun _ _ => rfl, nofun, ?_⟩
    have hdone {e : EState} {n : Half} (he : s.estate = e) (hn : s.pcnt = n) :
        Runs s [] { s with estate := e, pcnt := n } := by
      subst he hn
      exact .nil s
    rw [State.withPayload, List.length_nil, List.replicate_zero, List.append_nil]
    exact hdone hestate (BitVec.eq_of_toNat_eq hcount)
  | cons b p ih =>
    let u : State := (acceptPayloadByte b s).answer .ok 0
    have hfirst : Runs s [.encpay b] u := .single rfl fun _ => requireEState_same _ hestate
    rw [List.length_cons] at hcount
    have hpcnt : u.pcnt.toNat = s.pcnt.toNat + 1 := by
      change (s.pcnt + 1).toNat = _
      have := s.tLen.isLt
      bv_omega
    have hcomplete : payloadComplete s = decide (p = []) := by
      rw [payloadComplete, decide_eq_decide, ← List.length_eq_zero_iff]
      omega
    have hstate : u.estate = if p = [] then .emit else .fill := by
      change (if payloadComplete s then EState.emit else .fill) = _
      simp only [hcomplete, decide_eq_true_eq]
    obtain ⟨m, hbefore, hheld, hruns⟩ := ih (s := u) hstate (by change _ = s.tLen.toNat; omega) hfits
    have hinside : s.pcnt.toNat < Config.pmax := by omega
    refine ⟨m, fun a ha => ?_, fun k hk => ?_, ?_⟩
    · rw [hbefore a (by omega)]
      exact memWrite_read_other b (by omega)
    · cases k with
      | zero => exact (hbefore _ (by omega)).trans (memWrite_read_same b hinside)
      | succ k =>
        have := hheld k (by simpa using hk)
        rw [hpcnt, Nat.add_assoc, Nat.add_comm 1 k] at this
        exact this
    · rw [State.withPayload, List.length_cons, ← append_replicate_succ]
      exact hfirst.append hruns

/-- The state once the frame byte `b` has left. -/
def State.afterEmit (s : State) (last : Bool) (b : Byte) : State :=
  { s with
    estate := if last then .idle else .emit
    eidx := s.eidx + 1
    rsps := s.rsps ++ [mkResponse .ok (dataEmit last b)] }

/-- One ENCEMIT, by its end test. -/
theorem runs_encemit_single {s : State} {last : Bool} (hemit : s.estate = .emit) (hlast : lastFlag s = last) :
    Runs s [.encemit] (s.afterEmit last (frameByte s s.eidx.toNat)) := by
  subst hlast
  exact .single rfl fun _ => requireEState_same _ hemit

/-- ENCEMIT for each frame byte that is still to come, from the offset `EIDX` on. -/
theorem runs_encemit {s : State} (bs : List Byte) (hne : bs ≠ []) (hemit : s.estate = .emit)
    (hcount : s.eidx.toNat + bs.length = 6 + s.tLen.toNat)
    (hbyte : ∀ k (h : k < bs.length), frameByte s (s.eidx.toNat + k) = bs[k]) :
    ∃ e, Runs s (List.replicate bs.length .encemit)
      { s with estate := .idle, eidx := e, rsps := s.rsps ++ frameResponses bs } := by
  induction bs generalizing s with
  | nil => exact absurd rfl hne
  | cons b bs ih =>
    have hfirst : frameByte s s.eidx.toNat = b := hbyte 0 (Nat.zero_lt_succ _)
    rw [List.length_cons] at hcount
    cases bs with
    | nil =>
      rw [List.length_nil] at hcount
      have hlast : lastFlag s = true := decide_eq_true (by omega)
      subst hfirst
      exact ⟨_, runs_encemit_single hemit hlast⟩
    | cons c bs =>
      rw [List.length_cons] at hcount
      have hmore : lastFlag s = false := decide_eq_false (by omega)
      have hstep := runs_encemit_single hemit hmore
      rw [hfirst] at hstep
      have heidx : (s.afterEmit false b).eidx.toNat = s.eidx.toNat + 1 := by
        change (s.eidx + 1).toNat = _
        have := s.tLen.isLt
        bv_omega
      have hleft : (s.afterEmit false b).eidx.toNat + (c :: bs).length = 6 + s.tLen.toNat := by
        rw [heidx, List.length_cons]
        omega
      have hbytes (k : Nat) (hk : k < (c :: bs).length) :
          frameByte (s.afterEmit false b) ((s.afterEmit false b).eidx.toNat + k) = (c :: bs)[k] := by
        rw [heidx, Nat.add_assoc, Nat.add_comm 1 k]
        exact hbyte (k + 1) (Nat.succ_lt_succ hk)
      obtain ⟨e, hruns⟩ := ih nofun rfl hleft hbytes
      refine ⟨e, ?_⟩
      have hboth := hstep.append hruns
      rw [State.afterEmit, List.append_assoc] at hboth
      exact hboth

/-- Past the payload, the frame bytes are those of `encode` (R121), offset by offset. -/
theorem frameByte_eq_getElem {s : State} {ty id : Byte} {p : List Byte} (hty : s.tType = ty) (hid : s.tId = id)
    (hlen : s.tLen = BitVec.ofNat 16 p.length) (hacc : s.acc = accOf (encodeFrame 3 ty id p).tail)
    (hheld : ∀ k (h : k < p.length), s.pbuf.read k = some p[k]) (k : Nat)
    (hk : k < (encodeFrame 3 ty id p).length) : frameByte s k = (encodeFrame 3 ty id p)[k] := by
  match k with
  | 0 => exact congrArg accFinal hacc
  | 1 => rfl
  | 2 => exact hty
  | 3 => exact hid
  | 4 => exact congrArg loByte hlen
  | 5 => exact congrArg hiByte hlen
  | i + 6 =>
    have hi : i < p.length := by
      simp only [encodeFrame, headBytes, List.length_cons, List.length_append, List.length_nil] at hk
      omega
    rw [frameByte_payload, memRead_held (hheld i hi)]
    rfl

/-- ENCEMIT for each byte of a complete frame. -/
theorem runs_encemit_frame {s : State} {ty id : Byte} {p : List Byte} (hemit : s.estate = .emit)
    (heidx : s.eidx = 0) (hty : s.tType = ty) (hid : s.tId = id) (hlen : s.tLen = BitVec.ofNat 16 p.length)
    (hp : p.length ≤ 65535) (hacc : s.acc = accOf (encodeFrame 3 ty id p).tail)
    (hheld : ∀ k (h : k < p.length), s.pbuf.read k = some p[k]) :
    ∃ e, Runs s (List.replicate (6 + p.length) .encemit)
      { s with estate := .idle, eidx := e, rsps := s.rsps ++ frameResponses (encodeFrame 3 ty id p) } := by
  have hlength : (encodeFrame 3 ty id p).length = 6 + p.length := (encodedFrameLayout.1 3 ty id p).1
  have hstart (k : Nat) : s.eidx.toNat + k = k := by
    rw [heidx]
    exact Nat.zero_add k
  have hcount : s.eidx.toNat + (encodeFrame 3 ty id p).length = 6 + s.tLen.toNat := by
    rw [hstart, hlength, hlen, BitVec.toNat_ofNat, Nat.mod_eq_of_lt (by omega)]
  rw [← hlength]
  refine runs_encemit (encodeFrame 3 ty id p) nofun hemit hcount fun k hk => ?_
  rw [hstart]
  exact frameByte_eq_getElem hty hid hlen hacc hheld k hk

/-- ENCODE from IDLE: all its steps are accepted, and the bytes of the frame leave. -/
theorem runs_encode {s : State} (ty id : Byte) {p : List Byte} (hidle : s.estate = .idle)
    (hp : p.length ≤ Config.pmax) :
    ∃ m e, Runs s (pseudoEncode ty id p)
      { s with
        acc := accOf (encodeFrame 3 ty id p).tail
        estate := .idle
        tType := ty
        tId := id
        tLen := BitVec.ofNat 16 p.length
        pcnt := BitVec.ofNat 16 p.length
        eidx := e
        pbuf := m
        rsps := s.rsps ++ List.replicate (p.length + 1) plainOk ++ frameResponses (encodeFrame 3 ty id p) } := by
  have hp16 := hp.trans Config.pmax_le_65535
  have hlen : (BitVec.ofNat 16 p.length).toNat = p.length := by
    rw [BitVec.toNat_ofNat, Nat.mod_eq_of_lt (by omega)]
  have hfits : (BitVec.ofNat 16 p.length).toNat ≤ Config.pmax := hlen.trans_le hp
  let u : State := (startFrame ty id (BitVec.ofNat 16 p.length) s).answer .ok 0
  have hstart : Runs s [.encstart ty id (BitVec.ofNat 16 p.length)] u :=
    .single rfl fun _ => execEncstart_of_fits ty id hidle hfits
  have hstate : u.estate = if p = [] then .emit else .fill := by
    have hzero : BitVec.ofNat 16 p.length = 0 ↔ p = [] := by
      rw [← BitVec.toNat_inj, hlen]
      exact List.length_eq_zero_iff
    change (if BitVec.ofNat 16 p.length = 0 then EState.emit else .fill) = _
    simp only [hzero]
  obtain ⟨m, -, hheld, hpay⟩ := runs_encpay (s := u) p hstate ((Nat.zero_add _).trans hlen.symm) hfits
  have hacc : (u.withPayload p m).acc = accOf (encodeFrame 3 ty id p).tail := (accFrom_append _ _ p).symm
  have hread (k : Nat) (hk : k < p.length) : (u.withPayload p m).pbuf.read k = some p[k] := by
    have hstored := hheld k hk
    rwa [show u.pcnt.toNat + k = k from Nat.zero_add k] at hstored
  obtain ⟨e, hemit⟩ := runs_encemit_frame (s := u.withPayload p m) rfl rfl rfl rfl rfl hp16 hacc hread
  rw [hacc] at hemit
  rw [← append_replicate_succ]
  exact ⟨m, e, hstart.append (hpay.append hemit)⟩

/-- Settles O56: the run of ENCODE; what it does not name, the parser's registers among it, is as before. -/
theorem encodeSequenceEmitsTheEncodedFrame : Obligations.EncodeSequenceEmitsTheEncodedFrame := by
  intro s ty id p rest hidle hp hin
  obtain ⟨m, e, hruns⟩ := runs_encode (s := { s with inputs := rest }) ty id hidle hp
  have hn : (pseudoEncode ty id p).length = 2 * p.length + 7 := by
    simp [pseudoEncode, Config.hdrSize]
    omega
  exact ⟨_, hruns.runSteps_eq hin hn, rfl, rfl, rfl, rfl, rfl, rfl, rfl, rfl, rfl, rfl, rfl⟩

/-! ### Header and command word rows that present ENCODE -/

/-- Settles O32: the header presents ENCODE of the unlock key, whose 8 bytes fit every buffer. -/
theorem unlockHeaderYieldsTheUnlockFrame : Obligations.UnlockHeaderYieldsTheUnlockFrame := by
  refine ⟨fun s ck id rest hidle hin => ?_, by decide⟩
  let u : State := { s with inputs := rest }
  have hstep : step s = .next (u.present (pseudoUnlockFrame id)) :=
    step_transfer hin (Laws.RoundTrip.unlock ck id rfl)
  obtain ⟨m, e, hruns⟩ := runs_encode (s := u) Config.typeUnlock id (p := Config.unlockKey) hidle Config.eight_le_pmax
  have hrun := hruns.runSteps_eq (s := u.present (pseudoUnlockFrame id)) (rest := rest) (n := 23) rfl rfl
  exact ⟨_, (runSteps_succ 23 hstep).trans hrun, rfl, rfl, rfl, rfl⟩

/-- Every word that `pack` can produce has a row, and each row presents CMDFRAME of the word's fields. -/
theorem encodeWord_presents (op : BitVec 6) (val : BitVec 22) :
    ∃ i, decode (.cw (encodeWord op val)) = .ok i ∧ ∀ s, exec i s = .next (s.present (pseudoCmdFrame op val)) := by
  by_cases hrotE : op = Config.opRotE
  · subst hrotE
    exact ⟨_, Laws.RoundTrip.rotE val rfl, fun _ => rfl⟩
  by_cases hrotF : op = Config.opRotF
  · subst hrotF
    exact ⟨_, Laws.RoundTrip.rotF val rfl, fun _ => rfl⟩
  by_cases hstop : op = Config.opStop ∧ val = 0
  · obtain ⟨rfl, rfl⟩ := hstop
    exact ⟨_, Laws.RoundTrip.stop rfl, fun _ => rfl⟩
  · exact ⟨_, Laws.RoundTrip.cw op val (decide_eq_true ⟨hrotE, hrotF, hstop⟩), fun _ => rfl⟩

/-- Settles O33: the word presents PACK and then ENCODE of the packed word's four bytes. -/
theorem commandWordYieldsItsFrame : Obligations.CommandWordYieldsItsFrame := by
  intro s op val rest hidle hin
  let u : State := { s with inputs := rest }
  obtain ⟨i, hdecode, hpresent⟩ := encodeWord_presents op val
  have hstep : step s = .next (u.present (pseudoCmdFrame op val)) := (step_transfer hin hdecode).trans (hpresent u)
  have hpack : Runs u [.pack op val] (u.answer .ok (dataWord (packWord op val))) := .single rfl fun _ => rfl
  obtain ⟨m, e, hencode⟩ := runs_encode (s := u.answer .ok (dataWord (packWord op val))) Config.typeMotor 0
    (p := wordBytes (packWord op val)) hidle (show 4 ≤ Config.pmax from le_trans (by decide) Config.eight_le_pmax)
  have hrun := (hpack.append hencode).runSteps_eq (s := u.present (pseudoCmdFrame op val)) (rest := rest) (n := 16)
    rfl rfl
  rw [packWord_eq] at hrun
  exact ⟨_, (runSteps_succ 16 hstep).trans hrun, rfl, rfl, rfl⟩

/-! ### DECODEHDR (42_header_parser.md R157) -/

/-- The parser's registers, and the responses, after a sequence of bytes pushed. -/
def pushBytes : List Byte → State → State
  | [], s => s
  | b :: bs, s => pushBytes bs ((takeHeaderByte b s).answer .ok (dataValid (decide (s.hcnt = 5))))

theorem runs_hdpush (s : State) (bs : List Byte) : Runs s (bs.map Instr.hdpush) (pushBytes bs s) := by
  induction bs generalizing s with
  | nil => exact .nil s
  | cons b bs ih =>
    have hfirst : Runs s [.hdpush b] ((takeHeaderByte b s).answer .ok (dataValid (decide (s.hcnt = 5)))) :=
      .single rfl fun js => execHdpush_eq b (s.present js)
    exact hfirst.append (ih _)

/-- Six bytes pushed from `HCNT` 0 fill the five registers. -/
theorem pushBytes_six {s : State} (h : s.hcnt = 0) (b0 b1 b2 b3 b4 b5 : Byte) :
    pushBytes [b0, b1, b2, b3, b4, b5] s =
      { s with
        hcnt := 0
        hvalid := true
        hCk := b0
        hVer := b1
        hType := b2
        hId := b3
        hLen := joinLen b4 b5
        rsps := s.rsps ++ List.replicate 5 plainOk ++ [mkResponse .ok (dataValid true)] } := by
  have hnotYet : mkResponse .ok (dataValid false) = plainOk := rfl
  simp [pushBytes, takeHeaderByte, State.answer, h, hnotYet]

/-- The held header in the response, byte by byte (R86). -/
theorem dataHeader_bytes (b0 b1 b2 b3 b4 b5 : Byte) :
    dataHeader ⟨b0, b1, b2, b3, joinLen b4 b5⟩ = b5 ++ (b4 ++ (b3 ++ (b2 ++ (b1 ++ b0)))) := by
  unfold dataHeader joinLen
  ext i h
  grind

/-- Settles O57: the six pushes hold the header, and HDGET answers with it. -/
theorem decodeHdrSequenceReturnsTheHeader : Obligations.DecodeHdrSequenceReturnsTheHeader := by
  intro s b0 b1 b2 b3 b4 b5 rest hzero hin
  let u : State := { s with inputs := rest }
  have hpush := runs_hdpush u [b0, b1, b2, b3, b4, b5]
  rw [pushBytes_six (s := u) hzero] at hpush
  have hget {v : State} (hv : v.hvalid = true) : Runs v [.hdget] (v.answer .ok (dataHeader (heldHeader v))) :=
    .single rfl fun _ => execHdget_of_hvalid hv
  have hrun := (hpush.append (hget rfl)).runSteps_eq hin rfl
  refine hrun.trans ?_
  simp only [State.answer, heldHeader, dataHeader_bytes, List.append_assoc]
  rfl

end Sys2Proof.Machine
